-- ==== Sys2Proof/Word.lean ====
section
/-! DEFINITION. The words of the machine: octets, octet strings (R18), digests and round keys (R9, R136). -/

namespace Sys2Proof

/-- An octet is a natural below 256 (R18). -/
abbrev Octet := BitVec 8

/-- An octet string, first octet first (R18). -/
abbrev Octets := List Octet

/-- The answer of the PRF agent: exactly 32 octets (R9, R64). -/
abbrev Digest := Vector Octet 32

/-- The round key `K`: exactly 32 octets (R136). -/
abbrev PrfKey := Vector Octet 32

end Sys2Proof
end

