-- ==== Sys2Proof/Syntax.lean ====
section
/-! DEFINITION. The syntax: the command words (spec/opcode_table.json), the host registers (R95), the lines of a host
script (R107, R109), the turns of the agents (R24) and the bus form of a host transaction (R107). -/

namespace Sys2Proof

/-- A command, one constructor per row of spec/opcode_table.json. No command has an operand field: the operands are
always `A` and `X` (R90). `NOP` keeps bit 1 of its word, which the table leaves to any value (R93). -/
inductive Instr where
  /-- `ENC`, 0x01 (R91). -/
  | enc
  /-- `DEC`, 0x03 (R92). -/
  | dec
  /-- `NOP`, 0x00 or 0x02 (R93): `dir` is bit 1 of the word, ignored. -/
  | nop (dir : Bool)
  deriving DecidableEq, Repr

/-- The direction of the network, `STATUS.DIR` and bit 1 of the command word (R41, R90). -/
inductive Direction where
  /-- `DIR = 0`, the forward network of `ENC`. -/
  | forward
  /-- `DIR = 1`, the reverse network of `DEC`. -/
  | reverse
  deriving DecidableEq, Repr

/-- The four host registers (R73, R95). -/
inductive HostReg where
  | cmd
  | status
  | a
  | x
  deriving DecidableEq, Repr

/-- The register's index on the host port (R95). -/
def HostReg.index : HostReg → BitVec 2
  | .cmd => 0
  | .status => 1
  | .a => 2
  | .x => 3

/-- The register's width in bits (R61, R70, R95). -/
def HostReg.width : HostReg → Nat
  | .cmd => 8
  | .status => 8
  | .a => 128
  | .x => 256

/-- One line of a host script (R107, R109). A write carries exactly the register's width, "so a value too wide
cannot be expressed" (R61). -/
inductive HostOp where
  /-- `WR CMD, c`. -/
  | wrCmd (c : BitVec 8)
  /-- `WR STATUS, v`. -/
  | wrStatus (v : BitVec 8)
  /-- `WR A, v`. -/
  | wrA (v : BitVec 128)
  /-- `WR X, v`. -/
  | wrX (v : BitVec 256)
  /-- `RD reg`. -/
  | rd (reg : HostReg)
  /-- `WAIT`: repeat `RD STATUS` until `BUSY = 0`. -/
  | wait
  /-- `KEY k`: install `K` in the PRF agent; no transaction of the block. -/
  | key (k : PrfKey)
  /-- `PRF dg`: fix the answer the PRF agent gives to the next request, in place of a real HMAC. -/
  | prf (dg : Digest)
  deriving DecidableEq, Repr

/-- Who takes the next step: "Any enabled agent may take the next step" (R24); reset is an event from outside
the block (R280). -/
inductive Turn where
  | host
  | sequencer
  | prf
  | reset
  deriving DecidableEq, Repr

/-- The encoding of a script line on the host port: `(W, index, value)` or `(R, index)` (R107). -/
inductive Transaction where
  | write (index : BitVec 2) (value : Nat)
  | read (index : BitVec 2)
  deriving DecidableEq, Repr

end Sys2Proof
end

