-- ==== Sys2Proof/WellFormed.lean ====
section
/-! DEFINITION. Which terms of the syntax can occur. A command has no operand field, so every `Instr` is well formed
(R90); the one check is on the bus form of a write, whose value fits the register's width (R61). -/

namespace Sys2Proof

/-- Every command is well formed: "No field is an immediate and no field names a register" (R90). -/
def Instr.wellFormed : Instr → Bool
  | .enc => true
  | .dec => true
  | .nop _ => true

/-- The register with a given index; the index is 2 bits, "so there is no unassigned index" (R73). -/
def HostReg.ofIndex (i : BitVec 2) : HostReg :=
  if i = 0 then .cmd else if i = 1 then .status else if i = 2 then .a else .x

/-- `HostWrite(idx, v)` has `v < 2^width(idx)` (R61); a read is always well formed (R62). -/
def Transaction.wellFormed : Transaction → Bool
  | .write i v => v < 2 ^ (HostReg.ofIndex i).width
  | .read _ => true

end Sys2Proof
end

