-- ==== Sys2Proof/Decode.lean ====
section
/-! DEFINITION. The decoder of the command word (R90 to R94, R221), total on any octets and rejecting by name, the
encoder from the same table, and the encoding of a script line as a transaction of the host port (R107, R108). -/

namespace Sys2Proof

/-- Why a word is no command. -/
inductive DecodeReject where
  /-- No octet to decode. -/
  | empty
  /-- Bits 7:2 are not zero: the illegal words of R94. -/
  | reservedBits (c : BitVec 8)
  deriving DecidableEq, Repr

/-- The fields of format CMD8 (R90): bit 0. -/
def cmdStart (c : BitVec 8) : Bool := c.getLsbD 0

/-- Bit 1 of CMD8 (R90). -/
def cmdDir (c : BitVec 8) : Bool := c.getLsbD 1

/-- Bits 7:2 of CMD8 (R90). -/
def cmdRsv (c : BitVec 8) : BitVec 6 := c.extractLsb' 2 6

/-- Decode in the order of R221: illegal, then `NOP`, then `ENC` or `DEC`. -/
def decodeCommand (c : BitVec 8) : Except DecodeReject Instr :=
  if cmdRsv c ≠ 0 then .error (.reservedBits c)
  else if cmdStart c = false then .ok (.nop (cmdDir c))
  else if cmdDir c = false then .ok .enc
  else .ok .dec

/-- Decode the first command of an octet string; the command is one octet (R90, R105), the rest is handed back. -/
def decode : Octets → Except DecodeReject (Instr × Octets)
  | [] => .error .empty
  | c :: rest =>
    match decodeCommand c with
    | .ok i => .ok (i, rest)
    | .error e => .error e

/-- The word of a command (R91 to R93): `RSV`, `DIR`, `START`. -/
def encode : Instr → BitVec 8
  | .enc => 0b00000001
  | .dec => 0b00000011
  | .nop dir => 0#6 ++ (BitVec.ofBool dir ++ 0#1)

/-- The first octet of an instruction whose `nbits` table bits are `w`; bits above `nbits` are zero. -/
def tableOctet (nbits w : Nat) : BitVec 8 := BitVec.ofNat 8 (w % 2 ^ nbits)

/-- What the decoder reads from an opcode-table word. -/
def decodeTableWord (nbits w : Nat) : Option Instr :=
  match decode [tableOctet nbits w] with
  | .ok (i, _) => some i
  | .error _ => none

/-- A mnemonic as a script line: `ENC`, `DEC` and `NOP` are shorthand for a write to `CMD` (R108). -/
def Instr.line (i : Instr) : HostOp := .wrCmd (encode i)

/-- The transaction of a script line (R107); the pseudo-instructions of R109 are none. -/
def HostOp.transaction : HostOp → Option Transaction
  | .wrCmd c => some (.write HostReg.cmd.index c.toNat)
  | .wrStatus v => some (.write HostReg.status.index v.toNat)
  | .wrA v => some (.write HostReg.a.index v.toNat)
  | .wrX v => some (.write HostReg.x.index v.toNat)
  | .rd r => some (.read r.index)
  | .wait => none
  | .key _ => none
  | .prf _ => none

/-- The script line of a transaction; none for a value that does not fit the register, which the port cannot
carry (R61). -/
def Transaction.line (t : Transaction) : Option HostOp :=
  if t.wellFormed then
    match t with
    | .write i v =>
      match HostReg.ofIndex i with
      | .cmd => some (.wrCmd (BitVec.ofNat 8 v))
      | .status => some (.wrStatus (BitVec.ofNat 8 v))
      | .a => some (.wrA (BitVec.ofNat 128 v))
      | .x => some (.wrX (BitVec.ofNat 256 v))
    | .read i => some (.rd (HostReg.ofIndex i))
  else none

end Sys2Proof
end

