-- ==== Sys2Proof/Config.lean ====
section
/-! DEFINITION. What is fixed for the machine: the constants of R7 to R10 and R112, the black box `HMAC_SHA256`
(R65, D31: a parameter, here a constant with no body), and the one free value (U7). -/

namespace Sys2Proof.Config

/-- The round count, "fixed at **3** rounds" (R7, D22). -/
def rounds : Nat := 3

/-- `MAX_BYTES = 16`: the modulus has at most 16 octets (R8). -/
def maxBytes : Nat := 16

/-- Octets of a digest (R9). -/
def digestBytes : Nat := 32

/-- Octets of a length prefix and of the round index field (R10). -/
def lenBytes : Nat := 4

/-- `HMAC_SHA256(key, message)`: a total function from two octet strings to 32 octets, of which nothing else is
assumed (R65, D31, log 3). -/
opaque hmacSha256 : Octets → Octets → Digest

/-- The free value of U7: the key the PRF agent holds after the `n`-th reset event of a run ("any value", log 2). -/
opaque freeKey : Nat → PrfKey

end Sys2Proof.Config
end

