-- ==== Sys2Proof/Machine/State.lean ====
section
/-! DEFINITION. The state: the registers of the block (10_state.md), the PRF agent's key and scripted answers, the
host's script, the turns still to come and the observable history; its value after reset (R48 to R52); the reasons
a step can stop. -/

namespace Sys2Proof.Machine

/-- The phases of the sequencer (R35), named as the spec names them; no numeric encoding exists. -/
inductive Phase where
  | idle
  | split
  | issue
  | wait
  | mix
  | asm
  deriving DecidableEq, Repr

/-- The faults of the block (R242 to R244), recorded in `STATUS`; the machine goes on. -/
inductive Cause where
  | illegalCmd
  | badModulus
  | operandRange
  deriving DecidableEq, Repr

/-- The observable events (R80), and the value a host read returned (R62). -/
inductive Event where
  /-- A command write was accepted (R223). -/
  | accepted (dir : Direction)
  /-- `PrfReq(M)` was sent (R63). -/
  | prfReq (m : Octets)
  /-- `PrfRsp(Dg)` arrived (R64). -/
  | prfRsp (dg : Digest)
  /-- `STATUS` changed to `DONE` and `X` received the result (R80). -/
  | completed (status : BitVec 8) (x : BitVec 256)
  /-- A host read returned `v` (R62). -/
  | readReturned (reg : HostReg) (v : Nat)
  deriving DecidableEq, Repr

/-- The machine: the block, the PRF agent behind its port, the host at its port, and the order in which they move. -/
structure State where
  /-- The modulus (R25). -/
  A : BitVec 128
  /-- Operand and result (R26). -/
  X : BitVec 256
  /-- The left half (R27). -/
  L : BitVec 128
  /-- The right half (R28). -/
  R : BitVec 128
  /-- The round value (R29). -/
  W : BitVec 128
  /-- The digest latch (R30). -/
  D : BitVec 256
  /-- The round index (R34). -/
  I : BitVec 2
  /-- The phase (R35). -/
  PH : Phase
  /-- The status register (R37). -/
  STATUS : BitVec 8
  /-- The outstanding PRF request (R45, R63). -/
  request : Option Octets
  /-- The PRF agent's round key `K` (R46). -/
  key : PrfKey
  /-- The answers a test script has fixed, oldest first (R109, log 16). -/
  scripted : List Digest
  /-- The host's script, oldest line first (R107, log 6). -/
  script : List HostOp
  /-- The turns still to come, next first (R24, log 4). -/
  turns : List Turn
  /-- The observable history, oldest event first (R80, log 7). -/
  history : List Event
  /-- The number of free keys used so far (U7, log 2). -/
  freeKeys : Nat
  deriving DecidableEq, Repr

/-- Why a step stops with a fault. Each can arise only in a state that no run from reset reaches: the spec gives the
sequencer no effect there and no step of the block ever faults (R241). All are raised by the sequencer alone, never by
a command, and all are safe (log 8). -/
inductive Fault where
  /-- SPLIT or MIX with `A = 0`: "`mod 0` and `div 0` have no meaning" (R15). Safe. -/
  | zeroModulus
  /-- SPLIT or ASM with a result wider than its register: no wrap-around rule exists (D4). Safe. -/
  | registerOverflow
  /-- ISSUE or MIX with `I = 3`: "It never holds 3 and never wraps" (R34). Safe. -/
  | roundIndex
  deriving DecidableEq, Repr

/-- Why a step is refused. -/
inductive Refusal where
  /-- A command without a meaning in this model, by mnemonic. Raised by no arm of `exec`. Safe. -/
  | notModelled (mnemonic : String)
  deriving DecidableEq, Repr

/-- The answer of a step of this machine. -/
abbrev Result := Host.Outcome State Fault Refusal

/-- The machine right after reset: every register of the block at its reset value (R48 to R51), the agent's key at the
value log 1 names, nothing scripted, nothing scheduled, nothing observed. -/
def State.reset : State where
  A := 0
  X := 0
  L := 0
  R := 0
  W := 0
  D := 0
  I := 0
  PH := .idle
  STATUS := 0x00
  request := none
  key := Vector.replicate 32 0
  scripted := []
  script := []
  turns := []
  history := []
  freeKeys := 0

end Sys2Proof.Machine
end

