-- ==== Sys2Proof/Machine/Flags.lean ====
section
/-! DEFINITION. The fields of `STATUS` (R37 to R42): how each is read, and every change the spec makes to them
(acceptance R223, completion R185 and R205, fault entry R249). -/

namespace Sys2Proof.Machine

/-- The code of a fault in `STATUS.CAUSE` (R42). -/
def Cause.code : Cause → BitVec 2
  | .illegalCmd => 1
  | .badModulus => 2
  | .operandRange => 3

/-- `DIR` as a bit (R41). -/
def dirBit : Direction → Bool
  | .forward => false
  | .reverse => true

/-- The direction a `DIR` bit names (R41). -/
def dirOfBit : Bool → Direction
  | false => .forward
  | true => .reverse

namespace Status

/-- Bit 0 (R38). -/
def busy (v : BitVec 8) : Bool := v.getLsbD 0

/-- Bit 1 (R39). -/
def done (v : BitVec 8) : Bool := v.getLsbD 1

/-- Bit 2 (R40). -/
def err (v : BitVec 8) : Bool := v.getLsbD 2

/-- Bit 3 (R41). -/
def dir (v : BitVec 8) : Direction := dirOfBit (v.getLsbD 3)

/-- Bits 5:4 (R42). -/
def cause (v : BitVec 8) : BitVec 2 := v.extractLsb' 4 2

/-- Write bit `k`, leaving every other bit. -/
def putBit (k : Nat) (b : Bool) (v : BitVec 8) : BitVec 8 :=
  if b then v ||| BitVec.ofNat 8 (2 ^ k) else v &&& ~~~ BitVec.ofNat 8 (2 ^ k)

def setBusy (b : Bool) (v : BitVec 8) : BitVec 8 := putBit 0 b v
def setDone (b : Bool) (v : BitVec 8) : BitVec 8 := putBit 1 b v
def setErr (b : Bool) (v : BitVec 8) : BitVec 8 := putBit 2 b v
def setDir (d : Direction) (v : BitVec 8) : BitVec 8 := putBit 3 (dirBit d) v

/-- Write bits 5:4, leaving every other bit. -/
def setCause (c : BitVec 2) (v : BitVec 8) : BitVec 8 :=
  putBit 5 (c.getLsbD 1) (putBit 4 (c.getLsbD 0) v)

/-- Acceptance: `BUSY <- 1 ; DONE <- 0 ; ERR <- 0 ; CAUSE <- 0` (R223). -/
def accepted (v : BitVec 8) : BitVec 8 :=
  setCause 0 (setErr false (setDone false (setBusy true v)))

/-- Completion: `BUSY <- 0 ; DONE <- 1` (R185, R205). -/
def completed (v : BitVec 8) : BitVec 8 := setDone true (setBusy false v)

/-- Fault entry: `ERR <- 1 ; DONE <- 0 ; BUSY <- 0 ; CAUSE <- cause` (R249). -/
def faulted (c : Cause) (v : BitVec 8) : BitVec 8 :=
  setCause c.code (setBusy false (setDone false (setErr true v)))

/-- What a host reads: bits 7:6 "always read 0" (R42, log 13). -/
def readable (v : BitVec 8) : BitVec 8 := v &&& 0x3F

end Status

/-- `STATUS.BUSY` of a state (R38). -/
def State.busy (s : State) : Bool := Status.busy s.STATUS

/-- `STATUS.DIR` of a state (R41): it selects the mux and the adder mode for the whole command. -/
def State.dir (s : State) : Direction := Status.dir s.STATUS

end Sys2Proof.Machine
end

