-- ==== Sys2Proof/Machine/Octets.lean ====
section
/-! DEFINITION. The octet formats: OS2IP, I2OSP_min, enc32, enc_var (R19 to R21), the PRF message (R97), the header
(R103), and the readers of both (R105). Every integer is big-endian (R66). -/

namespace Sys2Proof.Machine

/-- `OS2IP`: the first octet is the most significant (R19). -/
def os2ip (s : Octets) : Nat := s.foldl (fun v o => 256 * v + o.toNat) 0

/-- The `n` low octets of `v`, most significant first. -/
def octetsBE : Nat → Nat → Octets
  | 0, _ => []
  | n + 1, v => octetsBE n (v / 256) ++ [BitVec.ofNat 8 v]

/-- `ceil(bitlength(v) / 8)`, the length of `I2OSP_min(v)` (R20). -/
def octetLen (v : Nat) : Nat := if v = 0 then 0 else v.log2 / 8 + 1

/-- `I2OSP_min`: minimal length, no leading zero octet, the empty string for zero (R20). -/
def i2ospMin (v : Nat) : Octets := octetsBE (octetLen v) v

/-- `enc32`: 4 octets, big-endian (R21). The spec defines it for `v < 2^32` (log 17). -/
def enc32 (v : Nat) : Octets := octetsBE Config.lenBytes v

/-- `enc_var(v) = enc32(len(P)) || P` with `P = I2OSP_min(v)` (R21). -/
def encVar (v : Nat) : Octets := enc32 (i2ospMin v).length ++ i2ospMin v

/-- The PRF request of round `i` with mux output `v`: `enc32(i) || enc_var(v)` (R97). -/
def message (i v : Nat) : Octets := enc32 i ++ encVar v

/-- The header `H = enc_var(n) || enc32(len(t)) || t` (R103, R135). -/
def header (n : Nat) (t : Octets) : Octets := encVar n ++ (enc32 t.length ++ t)

/-- Split off a 4-octet length and that many octets (R105). -/
def readField (s : Octets) : Option (Octets × Octets) :=
  let rest := s.drop Config.lenBytes
  let len := os2ip (s.take Config.lenBytes)
  if s.length < Config.lenBytes then none
  else if rest.length < len then none
  else some (rest.take len, rest.drop len)

/-- Read a PRF message: index, length, payload, and the end (R105). -/
def readMessage (s : Octets) : Option (Nat × Nat) :=
  if s.length < Config.lenBytes then none
  else
    match readField (s.drop Config.lenBytes) with
    | some (p, []) => some (os2ip (s.take Config.lenBytes), os2ip p)
    | _ => none

/-- Read a header: length, `n`, length, tweak, and the end (R105). -/
def readHeader (s : Octets) : Option (Nat × Octets) :=
  match readField s with
  | some (n, rest) =>
    match readField rest with
    | some (t, []) => some (os2ip n, t)
    | _ => none
  | none => none

end Sys2Proof.Machine
end

