-- ==== Sys2Proof/Machine/Network.lean ====
section
/-! DEFINITION. The arithmetic of the Feistel network on naturals, for any PRF function: modular addition and
subtraction (R16, R17), the split, the mux, the mix and the assembly of each direction (R163, R180, R200), the round
function `F` (R160), and the three rounds as one function. -/

namespace Sys2Proof.Machine

/-- `addmod(u, v, m) = (u + v) mod m`, the sum unbounded (R16). -/
def addmod (u v m : Nat) : Nat := (u + v) % m

/-- `submod(u, v, m)`: the `r` below `m` with `(r + v) mod m = u mod m` (R17). -/
def submod (u v m : Nat) : Nat := (u + (m - v % m)) % m

/-- The two halves, left then right. -/
abbrev Halves := Nat × Nat

/-- The split of the operand: `ENC` R183, `DEC` R203 ("note the reversed extraction"). -/
def splitHalves (dir : Direction) (a x : Nat) : Halves :=
  match dir with
  | .forward => (x % a, x / a)
  | .reverse => (x / a, x % a)

/-- The half sent to the PRF: `R` for `ENC`, `L` for `DEC` (R163). -/
def sentHalf (dir : Direction) (h : Halves) : Nat :=
  match dir with
  | .forward => h.2
  | .reverse => h.1

/-- The half combined with the round value: `L` for `ENC`, `R` for `DEC` (R163). -/
def keptHalf (dir : Direction) (h : Halves) : Nat :=
  match dir with
  | .forward => h.1
  | .reverse => h.2

/-- The combination: `ENC` adds, `DEC` subtracts (R163). -/
def combine (dir : Direction) (t w a : Nat) : Nat :=
  match dir with
  | .forward => addmod t w a
  | .reverse => submod t w a

/-- The new halves: the sent half moves to the other slot, the result takes the slot it left (R163, R184, R204). -/
def mixHalves (dir : Direction) (a w : Nat) (h : Halves) : Halves :=
  match dir with
  | .forward => (sentHalf dir h, combine dir (keptHalf dir h) w a)
  | .reverse => (combine dir (keptHalf dir h) w a, sentHalf dir h)

/-- The assembly: `ENC` `A * L + R` (R185), `DEC` `A * R + L` (R205). -/
def assemble (dir : Direction) (a : Nat) (h : Halves) : Nat :=
  match dir with
  | .forward => a * h.1 + h.2
  | .reverse => a * h.2 + h.1

/-- `F(i, V) = OS2IP(HMAC_SHA256(K, enc32(i) || enc_var(V))) mod a`, for the function `prf M` in the place of
`HMAC_SHA256(K, M)` (R160). -/
def roundFunction (prf : Octets → Digest) (a i v : Nat) : Nat :=
  os2ip (prf (message i v)).toList % a

/-- One round (R180, R200). -/
def networkRound (dir : Direction) (prf : Octets → Digest) (a : Nat) (h : Halves) (i : Nat) : Halves :=
  mixHalves dir a (roundFunction prf a i (sentHalf dir h)) h

/-- The round indices still to come when the next one is `i`: up to 2 for `ENC`, down to 0 for `DEC` (R34). -/
def roundsFrom (dir : Direction) (i : Nat) : List Nat :=
  match dir with
  | .forward => (List.range Config.rounds).drop i
  | .reverse => (List.range (i + 1)).reverse

/-- The first round index of a command: 0 for `ENC`, 2 for `DEC` (R34, R223). -/
def firstRound : Direction → Nat
  | .forward => 0
  | .reverse => Config.rounds - 1

/-- The last round index of a command (R184, R204). -/
def lastRound : Direction → Nat
  | .forward => Config.rounds - 1
  | .reverse => 0

/-- The round index after `i`, toward the last round (R184, R204). -/
def nextRound (dir : Direction) (i : Nat) : Nat :=
  match dir with
  | .forward => i + 1
  | .reverse => i - 1

/-- The rounds that remain, then the assembly. -/
def finish (dir : Direction) (prf : Octets → Digest) (a : Nat) (rounds : List Nat) (h : Halves) : Nat :=
  assemble dir a (rounds.foldl (networkRound dir prf a) h)

/-- The whole command as a function of the modulus and the operand: `ENC` R180, `DEC` R200. -/
def network (dir : Direction) (prf : Octets → Digest) (a x : Nat) : Nat :=
  finish dir prf a (roundsFrom dir (firstRound dir)) (splitHalves dir a x)

end Sys2Proof.Machine
end

