-- ==== Sys2Proof/Machine/Operands.lean ====
section
/-! DEFINITION. How the registers are read: the host's view of the four indices (R95, R229 to R231), the halves as
naturals, and the PRF request the present round sends (R165). -/

namespace Sys2Proof.Machine

/-- What `HostRead` returns, a natural below `2^width` (R62): `CMD` reads 0 (R231), `STATUS` with its reserved bits 0
(R229, R42), `A` and `X` whole (R230). No other register can be read (R32). -/
def readReg (r : HostReg) (s : State) : Nat :=
  match r with
  | .cmd => 0
  | .status => (Status.readable s.STATUS).toNat
  | .a => s.A.toNat
  | .x => s.X.toNat

/-- The two halves in `L` and `R` as naturals. -/
def State.halves (s : State) : Halves := (s.L.toNat, s.R.toNat)

/-- The mux output `V` (R163, R165). -/
def State.sent (s : State) : Nat := sentHalf s.dir s.halves

/-- The message of the present round: `enc32(I) || enc_var(V)` (R165). -/
def State.message (s : State) : Octets := Machine.message s.I.toNat s.sent

/-- The round value `D mod A` of the whole 256-bit digest (R102, R168). -/
def State.roundValue (s : State) : Nat := s.D.toNat % s.A.toNat

/-- The PRF agent's function under the key it holds (R65). -/
def State.prf (s : State) : Octets → Digest := Config.hmacSha256 s.key.toList

end Sys2Proof.Machine
end

