-- ==== Sys2Proof/Machine/Ops.lean ====
section
/-! DEFINITION. The shared operations: recording an event, fault entry (R249), acceptance of a command (R223), the
illegal word (R224), writing the halves, completion (R185, R205) and reset (R280). The block has no return from a
fault (R253): the next command word clears `ERR` and `CAUSE` itself (R225). -/

namespace Sys2Proof.Machine

/-- Append an event to the observable history (R80). -/
def State.record (e : Event) (s : State) : State := { s with history := s.history ++ [e] }

/-- `raise Fault(cause)`: `STATUS` only; the phase stays, nothing is saved and control goes nowhere (R249, R251). -/
def raiseFault (c : Cause) (s : State) : State := { s with STATUS := Status.faulted c s.STATUS }

/-- The accepted branch of R223: the flags, the first round index, the phase. -/
def startCommand (dir : Direction) (s : State) : State :=
  State.record (.accepted dir)
    { s with
      STATUS := Status.accepted (Status.setDir dir s.STATUS)
      I := BitVec.ofNat 2 (firstRound dir)
      PH := .split }

/-- A write of the command word of `dir` (R223), dropped while busy (R228). `STATUS.DIR` is written first and stays
written when the operands fault. -/
def acceptCommand (dir : Direction) (s : State) : State :=
  if s.busy then s
  else
    let s1 := { s with STATUS := Status.setDir dir s.STATUS }
    if s.A.toNat < 2 then raiseFault .badModulus s1
    else if s.A.toNat * s.A.toNat ≤ s.X.toNat then raiseFault .operandRange s1
    else startCommand dir s

/-- A write of an illegal word (R224), dropped while busy (R228). -/
def illegalCommand (s : State) : State := if s.busy then s else raiseFault .illegalCmd s

/-- Write both halves (R183, R184, R203, R204). -/
def State.setHalves (h : Halves) (s : State) : State :=
  { s with L := BitVec.ofNat 128 h.1, R := BitVec.ofNat 128 h.2 }

/-- The one atomic step of completion: the result into `X`, the internal registers cleared, `DONE` (R185, R205). -/
def completeCommand (x : Nat) (s : State) : State :=
  State.record (.completed (Status.completed s.STATUS) (BitVec.ofNat 256 x))
    { s with
      X := BitVec.ofNat 256 x
      L := 0
      R := 0
      W := 0
      D := 0
      I := 0
      STATUS := Status.completed s.STATUS
      PH := .idle }

/-- Reset (R280): every register of the block at its reset value, no request outstanding. It does not reach the host
(R283); the agent's key afterwards is a free value (U7, log 2). -/
def resetBlock (s : State) : State :=
  { s with
    A := 0
    X := 0
    L := 0
    R := 0
    W := 0
    D := 0
    I := 0
    PH := .idle
    STATUS := 0x00
    request := none
    key := Config.freeKey s.freeKeys
    freeKeys := s.freeKeys + 1 }

end Sys2Proof.Machine
end

