-- ==== Sys2Proof/Machine/Commands.lean ====
section
/-! DEFINITION. The meaning of each command word: what the write of the word does, one atomic step (R220, R223). The
rest of `ENC` and `DEC` is taken by the sequencer and the PRF agent (R181, R202, log 11). -/

namespace Sys2Proof.Machine

/-- `ENC` (R180, R223): start the forward network. -/
def execEnc (s : State) : Host.Outcome State Fault Refusal := .next (acceptCommand .forward s)

/-- `DEC` (R200, R223): start the reverse network. -/
def execDec (s : State) : Host.Outcome State Fault Refusal := .next (acceptCommand .reverse s)

/-- `NOP` (R220): "No register, no `STATUS` bit … and no phase changes, whether the block is busy or not". -/
def execNop (_dir : Bool) (s : State) : Host.Outcome State Fault Refusal := .next s

end Sys2Proof.Machine
end

