-- ==== Sys2Proof/Machine/HostPort.lean ====
section
/-! DEFINITION. The host's turn: one line of its script (R107, R109), each a single atomic step (R61, R62, R71). -/

namespace Sys2Proof.Machine

/-- `HostWrite(0, c)`: the word is decoded at the moment of the write and not kept (R79, R221, R222). -/
def writeCmd (c : BitVec 8) (s : State) : Result :=
  match decodeCommand c with
  | .ok i => exec i s
  | .error _ => .next (illegalCommand s)

/-- `HostWrite(1, v)` changes nothing in every state (R228). -/
def writeStatus (_v : BitVec 8) (s : State) : State := s

/-- `HostWrite(2, v)` (R226), dropped while busy (R228). -/
def writeA (v : BitVec 128) (s : State) : State := if s.busy then s else { s with A := v }

/-- `HostWrite(3, v)` (R227), dropped while busy (R228). -/
def writeX (v : BitVec 256) (s : State) : State := if s.busy then s else { s with X := v }

/-- `HostRead`: the value goes to the host; nothing of the block changes (R62, R72). -/
def hostRead (r : HostReg) (s : State) : State := State.record (.readReturned r (readReg r s)) s

/-- One poll of `WAIT`: `RD STATUS`, and the line stays while `BUSY = 1` (R109, log 15). -/
def hostWait (s : State) : State :=
  let s1 := hostRead .status s
  if s.busy then { s1 with script := .wait :: s1.script } else s1

/-- `KEY k`: the host installs `K` in the PRF agent (R109, R136). -/
def installKey (k : PrfKey) (s : State) : State := { s with key := k }

/-- `PRF dg`: fix the agent's answer to the next request not yet scripted (R109, log 16). -/
def scriptAnswer (dg : Digest) (s : State) : State := { s with scripted := s.scripted ++ [dg] }

/-- One script line. -/
def runLine (op : HostOp) (s : State) : Result :=
  match op with
  | .wrCmd c => writeCmd c s
  | .wrStatus v => .next (writeStatus v s)
  | .wrA v => .next (writeA v s)
  | .wrX v => .next (writeX v s)
  | .rd r => .next (hostRead r s)
  | .wait => .next (hostWait s)
  | .key k => .next (installKey k s)
  | .prf dg => .next (scriptAnswer dg s)

/-- The host's turn: the oldest line of its script; a host with nothing to do lets the turn pass (log 5). -/
def hostTurn (s : State) : Result :=
  match s.script with
  | [] => .next s
  | op :: rest => runLine op { s with script := rest }

end Sys2Proof.Machine
end

