-- ==== Sys2Proof/Machine/PrfPort.lean ====
section
/-! DEFINITION. The PRF agent's step RESPOND (R167) and the agent's answer (R65, R109). -/

namespace Sys2Proof.Machine

/-- The agent's answer to a request, and the scripted answers that remain: a scripted answer stands "in place of a
real HMAC" (R109); else `HMAC_SHA256(K, M)` (R65, R167). -/
def agentAnswer (m : Octets) (s : State) : Digest × List Digest :=
  match s.scripted with
  | [] => (s.prf m, [])
  | dg :: rest => (dg, rest)

/-- The answer `dg` arrives: `D <- OS2IP(Dg)`, the request is answered (R64, R167). -/
def receiveDigest (dg : Digest) (s : State) : State :=
  State.record (.prfRsp dg)
    { s with D := BitVec.ofNat 256 (os2ip dg.toList), PH := .mix, request := none }

/-- The PRF agent's turn: RESPOND while a request is outstanding (R167); otherwise it has no move (R171, log 5). -/
def prfTurn (s : State) : Result :=
  match s.PH, s.request with
  | .wait, some m =>
    .next (receiveDigest (agentAnswer m s).1 { s with scripted := (agentAnswer m s).2 })
  | _, _ => .next s

end Sys2Proof.Machine
end

