-- ==== Sys2Proof/Machine/Sequencer.lean ====
section
/-! DEFINITION. The steps of the sequencer: SPLIT (R183, R203), ISSUE (R165), MIX (R184, R204), ASM (R185, R205). Each
reads every register before it writes one (R22). -/

namespace Sys2Proof.Machine

/-- SPLIT: the halves of the operand; `X` keeps the operand (R183, R203). -/
def stepSplit (s : State) : Result :=
  let h := splitHalves s.dir s.A.toNat s.X.toNat
  if s.A.toNat = 0 then .fault .zeroModulus
  else if 2 ^ 128 ≤ h.1 ∨ 2 ^ 128 ≤ h.2 then .fault .registerOverflow
  else .next (State.setHalves h { s with PH := .issue })

/-- ISSUE: send the request of the present round (R165). -/
def stepIssue (s : State) : Result :=
  if s.I = 3 then .fault .roundIndex
  else .next (State.record (.prfReq s.message) { s with request := some s.message, PH := .wait })

/-- The phase and the round index after a MIX of round `i`: the last round leaves `I` alone (R184, R204). -/
def afterMix (dir : Direction) (i : BitVec 2) : Phase × BitVec 2 :=
  if i.toNat = lastRound dir then (.asm, i) else (.issue, BitVec.ofNat 2 (nextRound dir i.toNat))

/-- MIX: `W <- D mod A`, the new halves, the next round or ASM (R184, R204). -/
def stepMix (s : State) : Result :=
  if s.A.toNat = 0 then .fault .zeroModulus
  else if s.I = 3 then .fault .roundIndex
  else
    .next (State.setHalves (mixHalves s.dir s.A.toNat s.roundValue s.halves)
      { s with
        W := BitVec.ofNat 128 s.roundValue
        PH := (afterMix s.dir s.I).1
        I := (afterMix s.dir s.I).2 })

/-- ASM: the result into `X`, the internal registers cleared, `DONE` (R185, R205). -/
def stepAsm (s : State) : Result :=
  let x := assemble s.dir s.A.toNat s.halves
  if 2 ^ 256 ≤ x then .fault .registerOverflow
  else .next (completeCommand x s)

/-- The sequencer's turn: the step its phase enables, or none (R35, R166); a turn without an enabled step passes
(log 5). -/
def sequencerTurn (s : State) : Result :=
  match s.PH with
  | .idle => .next s
  | .split => stepSplit s
  | .issue => stepIssue s
  | .wait => .next s
  | .mix => stepMix s
  | .asm => stepAsm s

end Sys2Proof.Machine
end

