-- ==== Sys2Proof/Machine/Schedule.lean ====
section
/-! DEFINITION. Which agent moves next (R24, R77) and what its turn does. -/

namespace Sys2Proof.Machine

/-- Whether the phase enables a step of the sequencer (R35). -/
def Phase.sequencerEnabled : Phase → Bool
  | .idle => false
  | .split => true
  | .issue => true
  | .wait => false
  | .mix => true
  | .asm => true

/-- The agent that moves next: the head of the turns. When none is left the sequencer moves while it can, else the
host; the PRF agent and reset move only when given a turn (log 4), so that the hang of R262 stays a run. -/
def State.nextTurn (s : State) : Turn :=
  match s.turns with
  | t :: _ => t
  | [] => if s.PH.sequencerEnabled then .sequencer else .host

/-- The state with its next turn taken from the list. -/
def State.dropTurn (s : State) : State := { s with turns := s.turns.tail }

/-- One turn of one agent: one atomic step. -/
def takeTurn (t : Turn) (s : State) : Result :=
  match t with
  | .host => hostTurn s
  | .sequencer => sequencerTurn s
  | .prf => prfTurn s
  | .reset => .next (resetBlock s)

/-- Put a command word where the next step takes it: at the head of the host's script, with the host's turn next. -/
def placeCommand (c : BitVec 8) (s : State) : State :=
  { s with script := .wrCmd c :: s.script, turns := .host :: s.turns }

end Sys2Proof.Machine
end

