-- ==== Sys2Proof/Machine/Step.lean ====
section
/-! DEFINITION. One step of the machine: the next turn is taken. -/

namespace Sys2Proof.Machine

/-- One step: one atomic step of the agent whose turn it is (R24, R77). -/
def step (s : State) : Host.Outcome State Fault Refusal := takeTurn s.nextTurn s.dropTurn

/-- The state whose next step is the host's write of the table word `w` to `CMD` (R79, log 6). -/
def State.withFetchWord (s : State) (nbits w : Nat) : State := placeCommand (tableOctet nbits w) s

end Sys2Proof.Machine
end

