-- ==== Sys2Proof/Machine/HostContract.lean ====
section
/-! DEFINITION. The host contract (40_host_contract.md): the Validator (R120 to R129), the Factorizer (R131, R132), the
round key (R135, R136), the public operations as values and as scripts of host lines (R110, R140, R141), and what the
host makes of what it read (R143, R247, R290). Software around the block: no step of the hardware calls it. -/

namespace Sys2Proof.Machine

/-- The two error kinds, names without numbers (R138, R246, D32). -/
inductive HostError where
  | invalidArgument
  | fpeError
  deriving DecidableEq, Repr

/-- The inputs of a public operation that have passed checks 1 to 6. -/
structure CallInputs where
  n : Nat
  x : Nat
  k : Octets
  t : Octets
  deriving DecidableEq, Repr

/-- Checks 1 to 6 and R129, in order; `none` is a null argument, and the integers are signed so that check 5 has
something to refuse (R122 to R127, R129, log 18). For `decrypt` the ciphertext takes the place of `x` (R120). -/
def validate (n x : Option Int) (k t : Option Octets) : Except HostError CallInputs :=
  match n, x, k, t with
  | none, _, _, _ => .error .invalidArgument
  | some _, none, _, _ => .error .invalidArgument
  | some _, some _, none, _ => .error .invalidArgument
  | some _, some _, some _, none => .error .invalidArgument
  | some n, some x, some k, some t =>
    if k.length < 1 then .error .invalidArgument
    else if t.length < 1 ∨ 2 ^ 32 - 1 < t.length then .error .invalidArgument
    else if x < 0 ∨ n ≤ x then .error .invalidArgument
    else if 2 ^ (8 * Config.maxBytes) ≤ n ∨ n < 2 then .error .invalidArgument
    else .ok { n := n.toNat, x := x.toNat, k := k, t := t }

/-- The greatest `r` with `r * r ≤ n`, found bit by bit from bit `k - 1` down. -/
def isqrtFrom (n : Nat) : Nat → Nat → Nat
  | 0, r => r
  | k + 1, r => isqrtFrom n k (if (r + 2 ^ k) * (r + 2 ^ k) ≤ n then r + 2 ^ k else r)

/-- `floor(sqrt(n))`. -/
def isqrt (n : Nat) : Nat := isqrtFrom n (n.log2 / 2 + 1) 0

/-- Candidate divisors from `d` downward to 2; the first that divides gives `(a, b) = (n / d, d)` (R132). -/
def factorFrom (n : Nat) : Nat → Option (Nat × Nat)
  | 0 => none
  | d + 1 =>
    if d + 1 < 2 then none
    else if n % (d + 1) = 0 then some (n / (d + 1), d + 1)
    else factorFrom n d

/-- The Factorizer, and check 7: `FpeError` when `n` is prime (R128, R132). -/
def factor (n : Nat) : Except HostError (Nat × Nat) :=
  match factorFrom n (isqrt n) with
  | some p => .ok p
  | none => .error .fpeError

/-- `K = HMAC_SHA256(k, H)` (R136). -/
def roundKey (k : Octets) (n : Nat) (t : Octets) : PrfKey := Config.hmacSha256 k (header n t)

/-- The command of a direction. -/
def commandOf : Direction → Instr
  | .forward => .enc
  | .reverse => .dec

/-- `KEY K ; WR A, a ; WR X, x ; ENC or DEC ; WAIT ; RD X` (R110, R140, R141). -/
def callLines (dir : Direction) (key : PrfKey) (a x : Nat) : List HostOp :=
  [.key key, .wrA (BitVec.ofNat 128 a), .wrX (BitVec.ofNat 256 x), (commandOf dir).line, .wait, .rd .x]

/-- The script of a public operation; an error is raised before any register is written (R139, R140, R141). -/
def callScript (dir : Direction) (n x : Option Int) (k t : Option Octets) : Except HostError (List HostOp) :=
  match validate n x k t with
  | .error e => .error e
  | .ok c =>
    match factor c.n with
    | .error e => .error e
    | .ok (a, _) => .ok (callLines dir (roundKey c.k c.n c.t) a c.x)

/-- The value of a public operation: the network with the modulus `a` under the round key, returned as it is even
when it is not below `n` (R140, R141, R143, D19). -/
def publicOperation (dir : Direction) (n x : Option Int) (k t : Option Octets) : Except HostError Nat :=
  match validate n x k t with
  | .error e => .error e
  | .ok c =>
    match factor c.n with
    | .error e => .error e
    | .ok (a, _) => .ok (network dir (Config.hmacSha256 (roundKey c.k c.n c.t).toList) a c.x)

/-- `encrypt(modulus, plaintext, key, tweak)` (R111, R140). -/
def encrypt (n x : Option Int) (k t : Option Octets) : Except HostError Nat := publicOperation .forward n x k t

/-- `decrypt(modulus, ciphertext, key, tweak)` (R111, R141). -/
def decrypt (n y : Option Int) (k t : Option Octets) : Except HostError Nat := publicOperation .reverse n y k t

/-- What the host makes of a value of `STATUS` and one of `X`: a block fault is `InvalidArgument` (R247), `X` is a
result only with `DONE = 1` (R290), and while neither bit is set there is no answer yet. -/
def hostAnswer (status : BitVec 8) (x : Nat) : Option (Except HostError Nat) :=
  if Status.err status then some (.error .invalidArgument)
  else if Status.done status then some (.ok x)
  else none

/-- The answer in a history that ends with the last poll of `WAIT` and the read of `X` (R140). -/
def historyAnswer (h : List Event) : Option (Except HostError Nat) :=
  match h.reverse with
  | .readReturned .x x :: .readReturned .status v :: _ => hostAnswer (BitVec.ofNat 8 v) x
  | _ => none

end Sys2Proof.Machine
end

