-- ==== Sys2Proof/Safety.lean ====
section
/-! DEFINITION. What holds of every state a run can reach (R33, R34, R37 to R42, R45, R49, R229), the result a running
command will deliver, how far it is from it (R296), and the turns of one whole command (R36). -/

namespace Sys2Proof.Machine

/-- The only values of `STATUS` (R229). -/
def legalStatus : List (BitVec 8) :=
  [0x00, 0x01, 0x09, 0x02, 0x0A, 0x14, 0x1C, 0x24, 0x2C, 0x34, 0x3C]

/-- The value `v` of `STATUS` with every field given; bits 7:6 are those of `old` (R37). -/
def Status.Reads (v old : BitVec 8) (busy done err : Bool) (dir : Direction) (cause : BitVec 2) : Prop :=
  Status.busy v = busy ∧ Status.done v = done ∧ Status.err v = err ∧ Status.dir v = dir ∧ Status.cause v = cause ∧
    v.extractLsb' 6 2 = old.extractLsb' 6 2

/-- The other direction. -/
def opposite : Direction → Direction
  | .forward => .reverse
  | .reverse => .forward

/-- `k` steps of the machine. -/
def run (k : Nat) (s : State) : Result := Sys2Proof.core.run k s

/-- The next turn is the host's and `op` is the oldest line of its script. -/
def State.hostNext (s : State) (op : HostOp) (rest : List HostOp) : Prop :=
  s.nextTurn = .host ∧ s.script = op :: rest

/-- The state in which the host's line has been taken from the script and its turn from the turns. -/
def State.afterLine (s : State) (rest : List HostOp) : State := { s.dropTurn with script := rest }

/-- The phases in which the halves are loaded (R33). -/
def Phase.halvesLoaded : Phase → Bool
  | .idle => false
  | .split => false
  | .issue => true
  | .wait => true
  | .mix => true
  | .asm => true

/-- The invariant of the machine. -/
structure State.Inv (s : State) : Prop where
  /-- `STATUS` holds one of its eleven values (R229). -/
  status_legal : s.STATUS ∈ legalStatus
  /-- `BUSY = 1` exactly when `PH` is not IDLE (R38). -/
  busy_iff : s.busy = true ↔ s.PH ≠ .idle
  /-- Between commands, and before the split, the internal registers are zero (R49). -/
  clear : s.PH.halvesLoaded = false → s.L = 0 ∧ s.R = 0 ∧ s.W = 0 ∧ s.D = 0
  /-- Between commands the round index is zero (R49). -/
  idle_round : s.PH = .idle → s.I = 0
  /-- A running command has legal operands (R25, R26, R223). -/
  operands : s.PH ≠ .idle → 2 ≤ s.A.toNat ∧ s.X.toNat < s.A.toNat * s.A.toNat
  /-- `0 <= L < A` and `0 <= R < A` while the halves are loaded (R33), and `W < A` (R29). -/
  halves : s.PH.halvesLoaded = true →
    s.L.toNat < s.A.toNat ∧ s.R.toNat < s.A.toNat ∧ s.W.toNat < s.A.toNat
  /-- A request is outstanding exactly while `PH = WAIT`, and it is that of the present round (R45, R165). -/
  outstanding : s.request = if s.PH = .wait then some s.message else none
  /-- `I` never holds 3 (R34). -/
  round_index : s.I ≠ 3
  /-- A command starts at its first round (R223). -/
  split_round : s.PH = .split → s.I.toNat = firstRound s.dir
  /-- The assembly comes after the last round (R184, R204). -/
  asm_round : s.PH = .asm → s.I.toNat = lastRound s.dir

/-- The result the running command will store in `X` if the agent answers under its present key, nothing being
scripted. -/
def State.promised (s : State) : Nat :=
  let a := s.A.toNat
  let i := s.I.toNat
  match s.PH with
  | .idle => s.X.toNat
  | .split => network s.dir s.prf a s.X.toNat
  | .issue => finish s.dir s.prf a (roundsFrom s.dir i) s.halves
  | .wait => finish s.dir s.prf a (roundsFrom s.dir i) s.halves
  | .mix => finish s.dir s.prf a (roundsFrom s.dir i).tail (mixHalves s.dir a s.roundValue s.halves)
  | .asm => assemble s.dir a s.halves

/-- The steps of the sequencer and the PRF agent until the running command is done (R296). -/
def State.stepsLeft (s : State) : Nat :=
  let rounds := (roundsFrom s.dir s.I.toNat).length
  match s.PH with
  | .idle => 0
  | .split => 3 * Config.rounds + 2
  | .issue => 3 * rounds + 1
  | .wait => 3 * rounds
  | .mix => 3 * rounds - 1
  | .asm => 1

/-- The agent whose step the phase enables (R35). -/
def Phase.enabledTurn : Phase → Option Turn
  | .idle => none
  | .split => some .sequencer
  | .issue => some .sequencer
  | .wait => some .prf
  | .mix => some .sequencer
  | .asm => some .sequencer

/-- A line that changes what the PRF agent will answer. -/
def touchesAgent : HostOp → Bool
  | .wrCmd _ => false
  | .wrStatus _ => false
  | .wrA _ => false
  | .wrX _ => false
  | .rd _ => false
  | .wait => false
  | .key _ => true
  | .prf _ => true

/-- The agent answers under one key while this script runs: nothing is scripted, and no line touches the agent (R288). -/
def State.agentSteady (s : State) : Prop :=
  s.scripted = [] ∧ ∀ op ∈ s.script, touchesAgent op = false

/-- One round's turns: ISSUE, RESPOND, MIX. -/
def roundTurns : List Turn := [.sequencer, .prf, .sequencer]

/-- The turns of one accepted command, in the order of R36: SPLIT, three rounds, ASM. -/
def commandTurns : List Turn := .sequencer :: (roundTurns ++ (roundTurns ++ (roundTurns ++ [.sequencer])))

/-- The events of one command from its acceptance (R80): three requests and three answers in order, and completion. -/
def commandEvents (dir : Direction) (ms : List Octets) (dgs : List Digest) (status : BitVec 8) (x : BitVec 256) :
    List Event :=
  .accepted dir :: ((ms.zip dgs).flatMap (fun p => [.prfReq p.1, .prfRsp p.2]) ++ [.completed status x])

/-- The order of the phases (R36): a command starts at SPLIT, MIX returns to ISSUE with the next round index until the
last round, and ASM ends the command. -/
def phaseStep (s t : State) : Prop :=
  match s.PH with
  | .idle => t.PH = .split
  | .split => t.PH = .issue
  | .issue => t.PH = .wait
  | .wait => t.PH = .mix
  | .mix =>
    if s.I.toNat = lastRound s.dir then t.PH = .asm
    else t.PH = .issue ∧ t.I.toNat = nextRound s.dir s.I.toNat
  | .asm => t.PH = .idle

/-- The messages of a whole command, in the order sent (R76, R98). -/
def requests (dir : Direction) (prf : Octets → Digest) (a : Nat) : List Nat → Halves → List Octets
  | [], _ => []
  | i :: is, h => message i (sentHalf dir h) :: requests dir prf a is (networkRound dir prf a h i)

end Sys2Proof.Machine
end

