-- ==== Sys2Proof/Certificates/Slice0/Obligations.lean ====
section
/-! DEFINITION. The statements for the provers. Each docstring names the rule of spec/ it formalises; a premise that a
sequencer step has a nonzero modulus, a round index below 3 or halves below the modulus is part of the invariant
`State.Inv`, which is stated of every step by `EveryStepKeepsTheInvariant`. -/

open Sys2Proof Sys2Proof.Machine

/-! ## Reset -/

/-- R48 and R51, with the other reset values (R49, R50), and the refusal of a command before `A` is loaded (R48). -/
def Obligations.ResetValuesOfTheBlock : Prop :=
  State.reset.A = 0 ∧ State.reset.X = 0 ∧ State.reset.L = 0 ∧ State.reset.R = 0 ∧ State.reset.W = 0 ∧
    State.reset.D = 0 ∧ State.reset.I = 0 ∧ State.reset.PH = .idle ∧ State.reset.STATUS = 0x00 ∧
    State.reset.request = none ∧
    ∀ dir, ∃ t, exec (commandOf dir) State.reset = .next t ∧ Status.err t.STATUS = true ∧ Status.cause t.STATUS = 2

/-- R280, R281, R283: a reset turn in any state is one step that puts the block at its reset values, drops the
request and leaves the host's script, the history and the agent's scripted answers. The agent's key is left out: it is
a free value (log 2). -/
def Obligations.ResetTurnResetsTheBlockAlone : Prop :=
  ∀ s : State, s.nextTurn = .reset →
    ∃ k n, step s = .next { State.reset with
      key := k, scripted := s.scripted, script := s.script, turns := s.turns.tail, history := s.history, freeKeys := n }

/-! ## Command words -/

/-- R91 to R94: the four assigned words, and every other word is illegal. -/
def Obligations.CommandWordsDecode : Prop :=
  decodeCommand 0x01 = .ok .enc ∧ decodeCommand 0x03 = .ok .dec ∧ decodeCommand 0x00 = .ok (.nop false) ∧
    decodeCommand 0x02 = .ok (.nop true) ∧
    ∀ c : BitVec 8, 4 ≤ c.toNat ↔ decodeCommand c = .error (.reservedBits c)

/-- Decode and encode agree on every command and on every word (R90 to R93). That the word 0x02 is encoded back to 0x02
rests on the model's choice that `nop` keeps bit 1 of its word (log 12, DESIGN CHOICE); the spec's canonical spelling of
`NOP` is 0x00 (R93). -/
def Obligations.EncodeAndDecodeAgree : Prop :=
  (∀ i : Instr, decodeCommand (encode i) = .ok i) ∧
    ∀ (c : BitVec 8) (i : Instr), decodeCommand c = .ok i → encode i = c

/-- R107, R61: a script line and its transaction on the host port determine each other, and the port carries no value
too wide for its register. -/
def Obligations.LinesAndTransactionsAgree : Prop :=
  (∀ (op : HostOp) (t : Transaction), op.transaction = some t → t.wellFormed = true ∧ t.line = some op) ∧
    (∀ t : Transaction, t.wellFormed = true → ∃ op, t.line = some op ∧ op.transaction = some t) ∧
    ∀ t : Transaction, t.wellFormed = false → t.line = none

/-- R79, R221: a step that takes a command write runs the decoded command, with the line and the turn taken; an illegal
word raises its fault instead; and a placed table word is what the next step runs. -/
def Obligations.StepRunsTheDecodedCommand : Prop :=
  (∀ (s : State) (c : BitVec 8) (rest : List HostOp), s.hostNext (.wrCmd c) rest →
    (∀ i, decodeCommand c = .ok i → step s = exec i (s.afterLine rest)) ∧
    (∀ e, decodeCommand c = .error e → step s = .next (illegalCommand (s.afterLine rest)))) ∧
  ∀ (s : State) (w : Nat) (i : Instr), decodeTableWord 8 w = some i → step (s.withFetchWord 8 w) = exec i s

/-- R220: `NOP`, in both its spellings and in every state. -/
def Obligations.NopChangesNothing : Prop :=
  decodeCommand 0x00 = .ok (.nop false) ∧ decodeCommand 0x02 = .ok (.nop true) ∧
    ∀ (d : Bool) (s : State), exec (.nop d) s = .next s

/-- R223: acceptance of `ENC` and `DEC` while not busy: `DIR` first, then the two checks in order, then the start.
`STATUS` and what the record names change, nothing else. -/
def Obligations.AcceptanceOfEncAndDec : Prop :=
  decodeCommand 0x01 = .ok .enc ∧ decodeCommand 0x03 = .ok .dec ∧
  ∀ (i : Instr) (dir : Direction), (i = .enc ∧ dir = .forward) ∨ (i = .dec ∧ dir = .reverse) →
    ∀ s : State, s.busy = false →
      (s.A.toNat < 2 → ∃ v, exec i s = .next { s with STATUS := v } ∧
        Status.Reads v s.STATUS false false true dir 2) ∧
      (2 ≤ s.A.toNat → s.A.toNat * s.A.toNat ≤ s.X.toNat → ∃ v, exec i s = .next { s with STATUS := v } ∧
        Status.Reads v s.STATUS false false true dir 3) ∧
      (2 ≤ s.A.toNat → s.X.toNat < s.A.toNat * s.A.toNat → ∃ v, exec i s = .next { s with
          STATUS := v
          I := if dir = .forward then 0 else 2
          PH := .split
          history := s.history ++ [.accepted dir] } ∧
        Status.Reads v s.STATUS true false false dir 0)

/-- `ENC` completes its own write whenever the block is idle and the operands are legal (R180, R223). -/
def Obligations.EncStartsTheForwardNetwork : Prop :=
  ∀ s : State, s.busy = false → 2 ≤ s.A.toNat → s.X.toNat < s.A.toNat * s.A.toNat →
    ∃ v, exec .enc s = .next { s with
      STATUS := v, I := 0, PH := .split, history := s.history ++ [.accepted .forward] } ∧
      Status.Reads v s.STATUS true false false .forward 0

/-- `DEC` completes its own write whenever the block is idle and the operands are legal (R200, R223). -/
def Obligations.DecStartsTheReverseNetwork : Prop :=
  ∀ s : State, s.busy = false → 2 ≤ s.A.toNat → s.X.toNat < s.A.toNat * s.A.toNat →
    ∃ v, exec .dec s = .next { s with
      STATUS := v, I := 2, PH := .split, history := s.history ++ [.accepted .reverse] } ∧
      Status.Reads v s.STATUS true false false .reverse 0

/-- R224, R242: an illegal word while not busy, whatever the operands are: the fault entry and nothing else, `DIR`
left. -/
def Obligations.IllegalWordFaults : Prop :=
  ∀ (s : State) (c : BitVec 8) (rest : List HostOp), s.hostNext (.wrCmd c) rest → s.busy = false → 4 ≤ c.toNat →
    ∃ v, step s = .next { s with turns := s.turns.tail, script := rest, STATUS := v } ∧
      Status.Reads v s.STATUS false false true s.dir 1

/-! ## The host port -/

/-- R228: every write while busy is dropped, and a write to `STATUS` changes nothing in every state. -/
def Obligations.DroppedWrites : Prop :=
  ∀ (s : State) (op : HostOp) (rest : List HostOp), s.hostNext op rest →
    (s.busy = true → (∃ c, op = .wrCmd c) ∨ (∃ v, op = .wrA v) ∨ (∃ v, op = .wrX v) →
      step s = .next { s with turns := s.turns.tail, script := rest }) ∧
    ((∃ v, op = .wrStatus v) → step s = .next { s with turns := s.turns.tail, script := rest })

/-- R226 and R227: any value is stored in `A` and in `X` while not busy, and nothing else changes. -/
def Obligations.RegisterWritesStoreAnyValue : Prop :=
  (∀ (s : State) (v : BitVec 128) (rest : List HostOp), s.hostNext (.wrA v) rest → s.busy = false →
    step s = .next { s with turns := s.turns.tail, script := rest, A := v }) ∧
  ∀ (s : State) (v : BitVec 256) (rest : List HostOp), s.hostNext (.wrX v) rest → s.busy = false →
    step s = .next { s with turns := s.turns.tail, script := rest, X := v }

/-- R62, R72, R229 to R231: a host read in every phase hands a natural of the register's width to the host and changes
nothing of the machine: `CMD` reads 0, `STATUS` its six defined bits, `A` and `X` whole. -/
def Obligations.HostReadsHaveNoSideEffect : Prop :=
  ∀ (s : State) (r : HostReg) (rest : List HostOp), s.hostNext (.rd r) rest →
    ∃ v, step s = .next { s with
        turns := s.turns.tail, script := rest, history := s.history ++ [.readReturned r v] } ∧
      v < 2 ^ r.width ∧ (r = .cmd → v = 0) ∧ (r = .status → v = s.STATUS.toNat % 64) ∧
      (r = .a → v = s.A.toNat) ∧ (r = .x → v = s.X.toNat)

/-- R109: a poll of `WAIT` reads `STATUS`; the line stays while `BUSY = 1` and ends when it is 0. -/
def Obligations.WaitPollsUntilNotBusy : Prop :=
  ∀ (s : State) (rest : List HostOp), s.hostNext .wait rest →
    step s = .next { s with
      turns := s.turns.tail
      script := if s.busy then .wait :: rest else rest
      history := s.history ++ [.readReturned .status (s.STATUS.toNat % 64)] }

/-- R109, R136: a `KEY` line installs its key in the PRF agent and a `PRF` line fixes one more answer; each completes in
every state and changes nothing else. That a `KEY` line is carried out while the block is busy (log 10) and that a fixed
answer goes behind those already waiting (log 16) are the model's choices, both DESIGN CHOICE. -/
def Obligations.KeyAndPrfLinesChangeTheAgentAlone : Prop :=
  ∀ (s : State) (rest : List HostOp),
    (∀ k : PrfKey, s.hostNext (.key k) rest →
      step s = .next { s with turns := s.turns.tail, script := rest, key := k }) ∧
    ∀ dg : Digest, s.hostNext (.prf dg) rest →
      step s = .next { s with turns := s.turns.tail, script := rest, scripted := s.scripted ++ [dg] }

/-- R31, R41, R222: every line of a host script completes and leaves `L`, `R`, `W`, `D` and the request; only an
accepted command write changes the phase and the round index. -/
def Obligations.HostLinesLeaveTheInternals : Prop :=
  ∀ (s : State) (op : HostOp) (rest : List HostOp), s.hostNext op rest →
    ∃ t, step s = .next t ∧ t.L = s.L ∧ t.R = s.R ∧ t.W = s.W ∧ t.D = s.D ∧ t.request = s.request ∧
      t.turns = s.turns.tail ∧ t.freeKeys = s.freeKeys ∧
      ((t.PH = s.PH ∧ t.I = s.I) ∨
        ∃ dir, op = (commandOf dir).line ∧ s.busy = false ∧ t.PH = .split ∧ t.I.toNat = firstRound dir)

/-- R32, R45: the host cannot see the internals. Two machines that agree on `A`, `X` and `STATUS` answer every line
alike and agree again afterwards. -/
def Obligations.InternalsAreInvisibleToTheHost : Prop :=
  ∀ (s t : State) (op : HostOp) (rest : List HostOp), s.hostNext op rest → t.hostNext op rest →
    s.A = t.A → s.X = t.X → s.STATUS = t.STATUS →
    ∃ s' t' evs, step s = .next s' ∧ step t = .next t' ∧ s'.A = t'.A ∧ s'.X = t'.X ∧ s'.STATUS = t'.STATUS ∧
      s'.script = t'.script ∧ s'.history = s.history ++ evs ∧ t'.history = t.history ++ evs

/-! ## The steps of a command -/

/-- R183 and R203: SPLIT in both directions. -/
def Obligations.SplitLoadsTheHalves : Prop :=
  ∀ s : State, s.nextTurn = .sequencer → s.PH = .split → 2 ≤ s.A.toNat → s.X.toNat < s.A.toNat * s.A.toNat →
    ∃ l r, step s = .next { s with turns := s.turns.tail, L := l, R := r, PH := .issue } ∧
      (s.dir = .forward → l.toNat = s.X.toNat % s.A.toNat ∧ r.toNat = s.X.toNat / s.A.toNat) ∧
      (s.dir = .reverse → l.toNat = s.X.toNat / s.A.toNat ∧ r.toNat = s.X.toNat % s.A.toNat)

/-- R165: ISSUE sends `enc32(I) || enc_var(V)` with `V` the half the mux selects. -/
def Obligations.IssueSendsTheMuxedHalf : Prop :=
  ∀ s : State, s.nextTurn = .sequencer → s.PH = .issue → s.I ≠ 3 →
    ∃ m, step s = .next { s with
        turns := s.turns.tail, request := some m, PH := .wait, history := s.history ++ [.prfReq m] } ∧
      (s.dir = .forward → m = enc32 s.I.toNat ++ encVar s.R.toNat) ∧
      (s.dir = .reverse → m = enc32 s.I.toNat ++ encVar s.L.toNat)

/-- R167, R64, R65: RESPOND latches `OS2IP` of the whole answer of `HMAC_SHA256` under the agent's key. -/
def Obligations.RespondLatchesTheDigest : Prop :=
  ∀ (s : State) (m : Octets), s.nextTurn = .prf → s.PH = .wait → s.request = some m → s.scripted = [] →
    ∃ d, step s = .next { s with
        turns := s.turns.tail, D := d, PH := .mix, request := none
        history := s.history ++ [.prfRsp (Config.hmacSha256 s.key.toList m)] } ∧
      d.toNat = os2ip (Config.hmacSha256 s.key.toList m).toList

/-- R109: an answer fixed by the script stands in place of the real one. -/
def Obligations.ScriptedAnswerReplacesHmac : Prop :=
  ∀ (s : State) (m : Octets) (dg : Digest) (more : List Digest),
    s.nextTurn = .prf → s.PH = .wait → s.request = some m → s.scripted = dg :: more →
    ∃ d, step s = .next { s with
        turns := s.turns.tail, D := d, PH := .mix, request := none, scripted := more
        history := s.history ++ [.prfRsp dg] } ∧
      d.toNat = os2ip dg.toList

/-- R184 and R204, with R102 and R168: MIX in both directions. -/
def Obligations.MixCombinesTheHalves : Prop :=
  ∀ s : State, s.nextTurn = .sequencer → s.PH = .mix → 2 ≤ s.A.toNat → s.I ≠ 3 →
    ∃ w l r i p, step s = .next { s with turns := s.turns.tail, W := w, L := l, R := r, I := i, PH := p } ∧
      w.toNat = s.D.toNat % s.A.toNat ∧
      (s.dir = .forward →
        l = s.R ∧ r.toNat = (s.L.toNat + w.toNat) % s.A.toNat ∧
        (s.I = 2 → p = .asm ∧ i = 2) ∧ (s.I ≠ 2 → p = .issue ∧ i = s.I + 1)) ∧
      (s.dir = .reverse →
        r = s.L ∧ l.toNat < s.A.toNat ∧ (l.toNat + w.toNat) % s.A.toNat = s.R.toNat % s.A.toNat ∧
        (s.I = 0 → p = .asm ∧ i = 0) ∧ (s.I ≠ 0 → p = .issue ∧ i = s.I - 1))

/-- R185 and R205: ASM in both directions, in one step: the result, the cleared internals, `DONE`. -/
def Obligations.AsmDeliversTheResult : Prop :=
  ∀ s : State, s.nextTurn = .sequencer → s.PH = .asm → s.L.toNat < s.A.toNat → s.R.toNat < s.A.toNat →
    ∃ x v, step s = .next { s with
        turns := s.turns.tail, X := x, L := 0, R := 0, W := 0, D := 0, I := 0, STATUS := v, PH := .idle
        history := s.history ++ [.completed v x] } ∧
      Status.Reads v s.STATUS false true (Status.err s.STATUS) s.dir (Status.cause s.STATUS) ∧
      (s.dir = .forward → x.toNat = s.A.toNat * s.L.toNat + s.R.toNat) ∧
      (s.dir = .reverse → x.toNat = s.A.toNat * s.R.toNat + s.L.toNat)

/-- R166: in WAIT the sequencer has no step, the host's lines change no register, and the block stays there until
RESPOND. -/
def Obligations.BlockStaysInWaitUntilAnswered : Prop :=
  ∀ s : State, s.PH = .wait → s.busy = true → s.nextTurn = .host ∨ s.nextTurn = .sequencer →
    ∃ t, step s = .next t ∧ t.PH = .wait ∧ t.request = s.request ∧ t.A = s.A ∧ t.X = s.X ∧ t.L = s.L ∧ t.R = s.R ∧
      t.W = s.W ∧ t.D = s.D ∧ t.I = s.I ∧ t.STATUS = s.STATUS

/-- R25, R26, R46: the sequencer and the PRF agent never write `A` or the agent's key, write `X` in ASM alone, and leave
the host's script. -/
def Obligations.BlockWritesXOnlyInAsm : Prop :=
  ∀ s t : State, s.nextTurn = .sequencer ∨ s.nextTurn = .prf → step s = .next t →
    t.A = s.A ∧ t.key = s.key ∧ t.script = s.script ∧ t.freeKeys = s.freeKeys ∧ (t.X = s.X ∨ s.PH = .asm)

/-! ## The invariant and the whole machine -/

/-- The machine after reset meets the invariant. -/
def Obligations.ResetMeetsTheInvariant : Prop := State.reset.Inv

/-- R29, R33, R34, R38, R45, R49, R229: every step of every agent, reset included, keeps the invariant. -/
def Obligations.EveryStepKeepsTheInvariant : Prop :=
  ∀ s t : State, s.Inv → step s = .next t → t.Inv

/-- R241: in a state that meets the invariant no step stops. -/
def Obligations.NoStepStopsUnderTheInvariant : Prop :=
  ∀ s : State, s.Inv → ∃ t, step s = .next t

/-- R229: from reset, whatever the host's script and the order of the turns, the machine never stops and `STATUS` reads
as one of its eleven values. -/
def Obligations.EveryRunReadsALegalStatus : Prop :=
  ∀ (k : Nat) (script : List HostOp) (turns : List Turn),
    ∃ t, run k { State.reset with script := script, turns := turns } = .next t ∧
      readReg .status t ∈ [0x00, 0x01, 0x09, 0x02, 0x0A, 0x14, 0x1C, 0x24, 0x2C, 0x34, 0x3C] ∧
      (Status.busy t.STATUS = true ↔ t.PH ≠ .idle)

/-- R36: without a reset the phase stays or takes the one next phase of the fixed order. -/
def Obligations.PhasesFollowTheFixedOrder : Prop :=
  ∀ s t : State, s.Inv → s.nextTurn ≠ .reset → step s = .next t → t.PH = s.PH ∨ phaseStep s t

/-- R296: an accepted command is 11 steps from done; each step of the agent its phase enables brings it one nearer, and
no other turn moves it. -/
def Obligations.CommandProgressesStepByStep : Prop :=
  (∀ (dir : Direction) (s : State), (startCommand dir s).stepsLeft = 11) ∧
  (∀ s : State, s.Inv → (s.stepsLeft = 0 ↔ s.PH = .idle)) ∧
  ∀ s : State, s.Inv → s.PH ≠ .idle → s.nextTurn ≠ .reset →
    ∃ t, step s = .next t ∧
      (some s.nextTurn = s.PH.enabledTurn → t.stepsLeft + 1 = s.stepsLeft) ∧
      (some s.nextTurn ≠ s.PH.enabledTurn → t.stepsLeft = s.stepsLeft ∧ t.PH = s.PH)

/-- R63, R98: the outstanding request is the message of round 0, 1 or 2 with the half the mux selects, 8 to 24 octets
long. -/
def Obligations.OutstandingRequestIsWellFormed : Prop :=
  ∀ s : State, s.Inv → s.PH = .wait →
    ∃ m, s.request = some m ∧ 8 ≤ m.length ∧ m.length ≤ 24 ∧ s.I.toNat ≤ 2 ∧
      m = enc32 s.I.toNat ++ encVar (if s.dir = .forward then s.R.toNat else s.L.toNat)

/-- R288, R143: whatever the agent answered and whichever keys it held, the result is below `A * A`. -/
def Obligations.ResultIsBelowTheSquare : Prop :=
  ∀ s : State, s.Inv → s.PH = .asm → s.nextTurn = .sequencer →
    ∃ t, step s = .next t ∧ t.X.toNat < t.A.toNat * t.A.toNat ∧ Status.done t.STATUS = true ∧ t.busy = false

/-- The result of a running command is settled at its acceptance: any turn of any agent but reset leaves it, and it is
the network's value of the operands (R180, R200, R228), as long as the agent's answers come from one key (R288). -/
def Obligations.InterleavingLeavesThePromisedResult : Prop :=
  ∀ s : State, s.Inv → s.agentSteady → s.nextTurn ≠ .reset →
    ∃ t, step s = .next t ∧ t.agentSteady ∧ t.key = s.key ∧
      (s.PH ≠ .idle → t.promised = s.promised ∧ t.A = s.A) ∧
      (s.PH = .idle → t.PH ≠ .idle → t.promised = network t.dir s.prf s.A.toNat s.X.toNat ∧ t.A = s.A ∧ t.X = s.X)

/-- R180, R181, R200, R202, R76, R80: an accepted `ENC` or `DEC` followed by the eleven turns of R36 replaces `X` by the
network's value, sets `DONE`, clears the internals and leaves everything else; the history grows by the acceptance, the
three requests with their answers in order, and the completion. -/
def Obligations.CommandComputesTheNetwork : Prop :=
  ∀ (i : Instr) (dir : Direction), (i = .enc ∧ dir = .forward) ∨ (i = .dec ∧ dir = .reverse) →
    ∀ (s : State) (ts : List Turn), s.busy = false → 2 ≤ s.A.toNat → s.X.toNat < s.A.toNat * s.A.toNat →
      s.scripted = [] →
      ∃ t u, exec i s = .next t ∧ run 11 { t with turns := commandTurns ++ ts } = .next u ∧
        u.X.toNat = network dir s.prf s.A.toNat s.X.toNat ∧
        Status.Reads u.STATUS s.STATUS false true false dir 0 ∧
        u = { s with
          X := u.X, L := 0, R := 0, W := 0, D := 0, I := 0, PH := .idle, STATUS := u.STATUS, request := none
          turns := ts
          history := s.history ++
            commandEvents dir
              (requests dir s.prf s.A.toNat (roundsFrom dir (firstRound dir)) (splitHalves dir s.A.toNat s.X.toNat))
              ((requests dir s.prf s.A.toNat (roundsFrom dir (firstRound dir))
                (splitHalves dir s.A.toNat s.X.toNat)).map s.prf)
              u.STATUS u.X }

/-- R186 on the machine, under a choice of the model: the script has fixed three answers ahead, and they are given oldest
first. R109 fixes the answer to the next request alone; that several wait in a queue is log 16, DESIGN CHOICE and unsafe.
`ENC` then delivers the closed form of their round values. -/
def Obligations.ScriptedEncDeliversTheClosedForm : Prop :=
  ∀ (s : State) (d0 d1 d2 : Digest) (more : List Digest) (ts : List Turn),
    s.busy = false → 2 ≤ s.A.toNat → s.X.toNat < s.A.toNat * s.A.toNat → s.scripted = d0 :: d1 :: d2 :: more →
    ∃ t u, exec .enc s = .next t ∧ run 11 { t with turns := commandTurns ++ ts } = .next u ∧
      u.scripted = more ∧ u.PH = .idle ∧
      u.X.toNat =
        s.A.toNat * ((s.X.toNat / s.A.toNat + os2ip d1.toList) % s.A.toNat) +
          ((s.X.toNat % s.A.toNat + os2ip d0.toList) % s.A.toNat + os2ip d2.toList) % s.A.toNat

/-- R207, R225 on the machine: a command and then the opposite command on the result left in `X` restore the operand,
in both orders. -/
def Obligations.OppositeCommandRestoresTheOperand : Prop :=
  ∀ (dir : Direction) (s : State) (rest : List HostOp) (ts : List Turn),
    s.busy = false → 2 ≤ s.A.toNat → s.X.toNat < s.A.toNat * s.A.toNat → s.scripted = [] →
    s.script = (commandOf dir).line :: (commandOf (opposite dir)).line :: rest →
    s.turns = .host :: (commandTurns ++ .host :: (commandTurns ++ ts)) →
    ∃ t, run 24 s = .next t ∧ t.X = s.X ∧ t.A = s.A ∧ t.PH = .idle ∧ t.script = rest ∧ t.turns = ts ∧
      Status.Reads t.STATUS s.STATUS false true false (opposite dir) 0

/-! ## The network as a function -/

/-- R207, R187: for every modulus of at least 2 and every PRF function each direction is a permutation of `[0, A^2)` and
the other direction is its inverse. -/
def Obligations.NetworksAreInversePermutations : Prop :=
  ∀ (dir : Direction) (prf : Octets → Digest) (a : Nat), 2 ≤ a →
    (∀ x < a * a, network (opposite dir) prf a (network dir prf a x) = x) ∧
    Set.BijOn (network dir prf a) (Set.Iio (a * a)) (Set.Iio (a * a))

/-- R186, R206: the closed forms of both directions. -/
def Obligations.ClosedFormsOfTheNetworks : Prop :=
  ∀ (prf : Octets → Digest) (a x : Nat), 2 ≤ a → x < a * a →
    (∀ L0 R0 R1 R2 R3 : Nat, L0 = x % a → R0 = x / a →
      R1 = (L0 + roundFunction prf a 0 R0) % a → R2 = (R0 + roundFunction prf a 1 R1) % a →
      R3 = (R1 + roundFunction prf a 2 R2) % a →
      network .forward prf a x = a * R2 + R3) ∧
    ∀ L3 R3 L2 L1 L0 : Nat, L3 = x / a → R3 = x % a →
      L2 = submod R3 (roundFunction prf a 2 L3) a → L1 = submod L3 (roundFunction prf a 1 L2) a →
      L0 = submod L2 (roundFunction prf a 0 L1) a →
      network .reverse prf a x = a * L1 + L0

/-- R170: `DEC` of a result sends, in reverse order, exactly the messages `ENC` sent. -/
def Obligations.DecSendsTheMessagesOfEncReversed : Prop :=
  ∀ (prf : Octets → Digest) (a x : Nat), 2 ≤ a → x < a * a →
    requests .reverse prf a (roundsFrom .reverse (firstRound .reverse))
        (splitHalves .reverse a (network .forward prf a x)) =
      (requests .forward prf a (roundsFrom .forward (firstRound .forward)) (splitHalves .forward a x)).reverse

/-- C1, R143: the result is always below `a^2`, and it is not always below `n = a * b`: some PRF function takes an
operand below `6 = 3 * 2` to a value that is not below 6. -/
def Obligations.RangeIsTheSquareAndNotTheModulus : Prop :=
  (∀ (dir : Direction) (prf : Octets → Digest) (a x : Nat), 2 ≤ a → x < a * a → network dir prf a x < a * a) ∧
    ∃ (prf : Octets → Digest) (x : Nat), x < 6 ∧ 6 ≤ network .forward prf 3 x

/-- R16, R17: modular addition and true modular subtraction. -/
def Obligations.ModularAddAndSubtract : Prop :=
  ∀ u v m : Nat, 0 < m →
    addmod u v m = (u + v) % m ∧
    (u < m → v < m → addmod u v m = if u + v < m then u + v else u + v - m) ∧
    submod u v m < m ∧ (submod u v m + v) % m = u % m ∧
    (∀ r < m, (r + v) % m = u % m → r = submod u v m) ∧
    (u < m → v < m → submod u v m = if v ≤ u then u - v else u + m - v)

/-! ## Octet formats -/

/-- R20: `I2OSP_min` is the shortest octet string of its value. -/
def Obligations.MinimalOctetString : Prop :=
  i2ospMin 0 = [] ∧
  ∀ v : Nat, os2ip (i2ospMin v) = v ∧ (∀ s : Octets, os2ip s = v → (i2ospMin v).length ≤ s.length) ∧
    (i2ospMin v).length = (v.size + 7) / 8 ∧ ∀ o rest, i2ospMin v = o :: rest → o ≠ 0

/-- R105: a PRF message and a header read back. -/
def Obligations.MessagesAndHeadersReadBack : Prop :=
  (∀ i v : Nat, i < 2 ^ 32 → (i2ospMin v).length < 2 ^ 32 → readMessage (message i v) = some (i, v)) ∧
    ∀ (n : Nat) (t : Octets), (i2ospMin n).length < 2 ^ 32 → t.length < 2 ^ 32 →
      readHeader (header n t) = some (n, t)

/-- R106: the maps to the message and to the header are injective. -/
def Obligations.MessagesAndHeadersAreInjective : Prop :=
  (∀ i j v w : Nat, i < 2 ^ 32 → j < 2 ^ 32 → (i2ospMin v).length < 2 ^ 32 → (i2ospMin w).length < 2 ^ 32 →
    message i v = message j w → i = j ∧ v = w) ∧
  ∀ (n n' : Nat) (t t' : Octets), (i2ospMin n).length < 2 ^ 32 → (i2ospMin n').length < 2 ^ 32 →
    t.length < 2 ^ 32 → t'.length < 2 ^ 32 → header n t = header n' t' → n = n' ∧ t = t'

/-! ## The host contract -/

/-- R131, R132, R128: the Factorizer gives the largest divisor up to the square root, and `FpeError` exactly for a
prime. -/
def Obligations.FactorizerFindsTheLargestDivisor : Prop :=
  ∀ n : Nat, 2 ≤ n →
    (∀ a b : Nat, factor n = .ok (a, b) ↔
      a * b = n ∧ 2 ≤ b ∧ b ≤ a ∧ ∀ d, 2 ≤ d → d * d ≤ n → d ∣ n → d ≤ b) ∧
    (factor n = .error .fpeError ↔ n.Prime) ∧ factor n ≠ .error .invalidArgument

/-- R122 to R127, R129: what passes the Validator, and that every refusal of it is `InvalidArgument`. -/
def Obligations.ValidatorAcceptsTheContract : Prop :=
  (∀ (n x : Option Int) (k t : Option Octets) (c : CallInputs), validate n x k t = .ok c ↔
    ∃ (n' x' : Int) (k' t' : Octets), n = some n' ∧ x = some x' ∧ k = some k' ∧ t = some t' ∧
      1 ≤ k'.length ∧ 1 ≤ t'.length ∧ t'.length ≤ 2 ^ 32 - 1 ∧ 0 ≤ x' ∧ x' < n' ∧ 2 ≤ n' ∧ n' < 2 ^ 128 ∧
      c = { n := n'.toNat, x := x'.toNat, k := k', t := t' }) ∧
  ∀ (n x : Option Int) (k t : Option Octets) (e : HostError), validate n x k t = .error e → e = .invalidArgument

/-- R121, R128, R138: the two error kinds of the public operations: `FpeError` exactly for a valid call with a prime
modulus, everything else that fails is `InvalidArgument`, and an error leaves no script. -/
def Obligations.PublicErrorKinds : Prop :=
  ∀ (dir : Direction) (n x : Option Int) (k t : Option Octets),
    (publicOperation dir n x k t = .error .fpeError ↔ ∃ c, validate n x k t = .ok c ∧ c.n.Prime) ∧
    (publicOperation dir n x k t = .error .invalidArgument ↔ validate n x k t = .error .invalidArgument) ∧
    ∀ e, publicOperation dir n x k t = .error e ↔ callScript dir n x k t = .error e

/-- R146: the script of a public operation is the one of its validated arguments `c`, with the factors `(a, b)` of `c.n`
and the round key of the call, and what it loads is legal for the block. -/
def Obligations.ConformingHostLoadsLegalOperands : Prop :=
  ∀ (dir : Direction) (n x : Option Int) (k t : Option Octets) (lines : List HostOp),
    callScript dir n x k t = .ok lines →
    ∃ (c : CallInputs) (a b : Nat), validate n x k t = .ok c ∧ factor c.n = .ok (a, b) ∧
      lines = callLines dir (roundKey c.k c.n c.t) a c.x ∧
      2 ≤ b ∧ b ≤ a ∧ a < 2 ^ 127 ∧ c.x < a * b ∧ a * b ≤ a * a

/-- R110, R140, R141: the script of a public operation, run on an idle block with its agent's answers unscripted, gives
the host exactly the value of the operation. How the host's answer is read from the history is the model's rendering
(log 22, DEDUCED). -/
def Obligations.PublicOperationRunsOnTheBlock : Prop :=
  ∀ (dir : Direction) (n x : Option Int) (k t : Option Octets) (lines rest : List HostOp) (s : State) (ts : List Turn),
    callScript dir n x k t = .ok lines → s.busy = false → s.scripted = [] → s.script = lines ++ rest →
    s.turns = [.host, .host, .host, .host] ++ (commandTurns ++ ([.host, .host] ++ ts)) →
    ∃ u, run 17 s = .next u ∧ historyAnswer u.history = some (publicOperation dir n x k t) ∧
      u.PH = .idle ∧ u.script = rest ∧ u.turns = ts
end

