-- ==== Sys2Proof/Laws/Flags.lean ====
section
/-! SUPPORT. What each field of `STATUS` reads after each change of it (R37 to R42). -/

namespace Sys2Proof.Machine

theorem dirOfBit_dirBit (d : Direction) : dirOfBit (dirBit d) = d := by cases d <;> rfl

theorem setDir_reads (d : Direction) (v : BitVec 8) :
    Status.Reads (Status.setDir d v) v (Status.busy v) (Status.done v) (Status.err v) d (Status.cause v) := by
  unfold Status.Reads
  revert v
  cases d <;> decide

theorem accepted_reads (v : BitVec 8) :
    Status.Reads (Status.accepted v) v true false false (Status.dir v) 0 := by
  unfold Status.Reads
  revert v
  decide

theorem completed_reads (v : BitVec 8) :
    Status.Reads (Status.completed v) v false true (Status.err v) (Status.dir v) (Status.cause v) := by
  unfold Status.Reads
  revert v
  decide

theorem faulted_reads (c : Cause) (v : BitVec 8) :
    Status.Reads (Status.faulted c v) v false false true (Status.dir v) c.code := by
  unfold Status.Reads
  revert v
  cases c <;> decide

/-- `DIR` is written first and the fault entry leaves it (R249). -/
theorem faulted_setDir_reads (c : Cause) (d : Direction) (v : BitVec 8) :
    Status.Reads (Status.faulted c (Status.setDir d v)) v false false true d c.code := by
  unfold Status.Reads
  revert v
  cases c <;> cases d <;> decide

theorem accepted_setDir_reads (d : Direction) (v : BitVec 8) :
    Status.Reads (Status.accepted (Status.setDir d v)) v true false false d 0 := by
  unfold Status.Reads
  revert v
  cases d <;> decide

/-- Starting a command leaves a legal value: `BUSY` and `DIR` alone (R229). -/
theorem accepted_setDir_legal (d : Direction) {v : BitVec 8} (h : v ∈ legalStatus) :
    Status.accepted (Status.setDir d v) = if d = .forward then 0x01 else 0x09 := by
  revert v
  cases d <;> decide

/-- A busy status completes to `DONE` and `DIR` alone (R229). -/
theorem completed_legal {v : BitVec 8} (h : v ∈ legalStatus) (hb : Status.busy v = true) :
    Status.completed v = if Status.dir v = .forward then 0x02 else 0x0A := by
  revert v
  decide

/-- A fault leaves a legal value (R229). -/
theorem faulted_legal (c : Cause) {v : BitVec 8} (h : v ∈ legalStatus) :
    Status.faulted c v ∈ legalStatus := by
  revert v
  cases c <;> decide

theorem setDir_faulted_legal (c : Cause) (d : Direction) {v : BitVec 8} (h : v ∈ legalStatus) :
    Status.faulted c (Status.setDir d v) ∈ legalStatus := by
  revert v
  cases c <;> cases d <;> decide

/-- The reserved bits of a legal value are zero already (R42). -/
theorem readable_of_legal {v : BitVec 8} (h : v ∈ legalStatus) : Status.readable v = v := by
  revert v
  decide

end Sys2Proof.Machine
end

