-- ==== Sys2Proof/Laws/Octets.lean ====
section
/-! SUPPORT. The octet formats: OS2IP and the big-endian octets (R19 to R21), lengths, and reading a length-prefixed
field back (R105). -/

namespace Sys2Proof.Machine

@[simp] theorem os2ip_nil : os2ip [] = 0 := rfl

/-- The defining equation of R19. -/
@[simp] theorem os2ip_append_singleton (s : Octets) (o : Octet) : os2ip (s ++ [o]) = 256 * os2ip s + o.toNat := by
  simp [os2ip]

theorem os2ip_lt (s : Octets) : os2ip s < 256 ^ s.length := by
  induction s using List.reverseRecOn with
  | nil => simp
  | append_singleton s o ih =>
    rw [os2ip_append_singleton, List.length_append, List.length_singleton, pow_succ]
    have := o.isLt
    omega

@[simp] theorem octetsBE_length (n v : Nat) : (octetsBE n v).length = n := by
  induction n generalizing v with
  | zero => rfl
  | succ n ih => simp [octetsBE, ih]

theorem os2ip_octetsBE (n v : Nat) : os2ip (octetsBE n v) = v % 256 ^ n := by
  induction n generalizing v with
  | zero => simp [octetsBE, Nat.mod_one]
  | succ n ih =>
    have hp : 256 ^ (n + 1) = 256 * 256 ^ n := pow_succ' _ _
    rw [octetsBE, os2ip_append_singleton, ih, BitVec.toNat_ofNat, hp, Nat.mod_mul]
    omega

theorem octetsBE_os2ip (s : Octets) : octetsBE s.length (os2ip s) = s := by
  induction s using List.reverseRecOn with
  | nil => rfl
  | append_singleton s o ih =>
    have ho := o.isLt
    rw [List.length_append, List.length_singleton, octetsBE, os2ip_append_singleton]
    have h1 : (256 * os2ip s + o.toNat) / 256 = os2ip s := by omega
    have h2 : BitVec.ofNat 8 (256 * os2ip s + o.toNat) = o := by
      apply BitVec.eq_of_toNat_eq
      rw [BitVec.toNat_ofNat]
      omega
    rw [h1, h2, ih]

/-- A value fits its minimal length. -/
theorem lt_pow_octetLen (v : Nat) : v < 256 ^ octetLen v := by
  unfold octetLen
  split
  · simp_all
  · have h1 : v < 2 ^ (v.log2 + 1) := Nat.lt_log2_self
    have h2 : (256 : Nat) ^ (v.log2 / 8 + 1) = 2 ^ (8 * (v.log2 / 8 + 1)) := by
      rw [show (256 : Nat) = 2 ^ 8 from rfl, ← pow_mul]
    rw [h2]
    exact lt_of_lt_of_le h1 (Nat.pow_le_pow_right (by norm_num) (by omega))

/-- A shorter string cannot hold the value. -/
theorem octetLen_le_of_lt {v n : Nat} (h : v < 256 ^ n) : octetLen v ≤ n := by
  unfold octetLen
  split
  · omega
  · rename_i hv
    have h1 : 2 ^ v.log2 ≤ v := Nat.log2_self_le hv
    have h2 : (256 : Nat) ^ n = 2 ^ (8 * n) := by rw [show (256 : Nat) = 2 ^ 8 from rfl, ← pow_mul]
    have h3 : 2 ^ v.log2 < 2 ^ (8 * n) := lt_of_le_of_lt h1 (h2 ▸ h)
    have h4 : v.log2 < 8 * n := (Nat.pow_lt_pow_iff_right (by norm_num)).1 h3
    omega

@[simp] theorem i2ospMin_length (v : Nat) : (i2ospMin v).length = octetLen v := octetsBE_length _ _

theorem os2ip_i2ospMin (v : Nat) : os2ip (i2ospMin v) = v := by
  rw [i2ospMin, os2ip_octetsBE, Nat.mod_eq_of_lt (lt_pow_octetLen v)]

@[simp] theorem enc32_length (v : Nat) : (enc32 v).length = 4 := octetsBE_length _ _

theorem os2ip_enc32 {v : Nat} (h : v < 2 ^ 32) : os2ip (enc32 v) = v := by
  rw [enc32, os2ip_octetsBE]
  exact Nat.mod_eq_of_lt (by simpa [Config.lenBytes] using h)

@[simp] theorem encVar_length (v : Nat) : (encVar v).length = 4 + octetLen v := by simp [encVar]

@[simp] theorem message_length (i v : Nat) : (message i v).length = 8 + octetLen v := by
  simp [message]
  omega

/-- A length-prefixed field reads back with what follows it (R105). -/
theorem readField_prefixed (p rest : Octets) (h : p.length < 2 ^ 32) :
    readField (enc32 p.length ++ (p ++ rest)) = some (p, rest) := by
  unfold readField
  have hl : (enc32 p.length).length = Config.lenBytes := enc32_length _
  rw [← hl, List.take_left, List.drop_left, os2ip_enc32 h]
  simp

theorem digest_lt (dg : Digest) : os2ip dg.toList < 2 ^ 256 := by
  have h := os2ip_lt dg.toList
  rw [Vector.length_toList] at h
  exact lt_of_lt_of_eq h (by norm_num)

/-- The digest latch holds the whole digest (R101). -/
theorem digest_toNat (dg : Digest) : (BitVec.ofNat 256 (os2ip dg.toList)).toNat = os2ip dg.toList := by
  rw [BitVec.toNat_ofNat, Nat.mod_eq_of_lt (digest_lt dg)]

end Sys2Proof.Machine
end

