-- ==== Sys2Proof/Laws/Network.lean ====
section
/-! SUPPORT. Bounds of the network's operations: every half stays below the modulus (R33). -/

namespace Sys2Proof.Machine

/-- Both halves are below the modulus (R33). -/
def Halves.Below (a : Nat) (h : Halves) : Prop := h.1 < a ∧ h.2 < a

theorem addmod_lt {m : Nat} (u v : Nat) (hm : 0 < m) : addmod u v m < m := Nat.mod_lt _ hm

theorem submod_lt {m : Nat} (u v : Nat) (hm : 0 < m) : submod u v m < m := Nat.mod_lt _ hm

theorem combine_lt {a : Nat} (dir : Direction) (t w : Nat) (ha : 0 < a) : combine dir t w a < a := by
  cases dir
  · exact addmod_lt t w ha
  · exact submod_lt t w ha

theorem splitHalves_below {a x : Nat} (dir : Direction) (ha : 0 < a) (hx : x < a * a) :
    (splitHalves dir a x).Below a := by
  have h1 : x % a < a := Nat.mod_lt _ ha
  have h2 : x / a < a := Nat.div_lt_of_lt_mul hx
  cases dir
  · exact ⟨h1, h2⟩
  · exact ⟨h2, h1⟩

theorem mixHalves_below {a : Nat} (dir : Direction) (w : Nat) {h : Halves} (hb : h.Below a) :
    (mixHalves dir a w h).Below a := by
  have ha : 0 < a := Nat.lt_of_le_of_lt (Nat.zero_le _) hb.1
  cases dir
  · exact ⟨hb.2, combine_lt .forward (keptHalf .forward h) w ha⟩
  · exact ⟨combine_lt .reverse (keptHalf .reverse h) w ha, hb.1⟩

theorem assemble_lt {a : Nat} (dir : Direction) {h : Halves} (hb : h.Below a) : assemble dir a h < a * a := by
  have key : ∀ u v : Nat, u < a → v < a → a * u + v < a * a := by
    intro u v hu hv
    calc a * u + v < a * u + a := by omega
      _ = a * (u + 1) := by ring
      _ ≤ a * a := Nat.mul_le_mul_left a hu
  cases dir
  · exact key _ _ hb.1 hb.2
  · exact key _ _ hb.2 hb.1

theorem networkRound_below {a : Nat} (dir : Direction) (prf : Octets → Digest) {h : Halves} (i : Nat)
    (hb : h.Below a) : (networkRound dir prf a h i).Below a := mixHalves_below dir _ hb

/-- The rounds in the order a round index leaves them: the next one, then the rest (R34). -/
theorem roundsFrom_cons {dir : Direction} {i : Nat} (hi : i < Config.rounds) :
    roundsFrom dir i = i :: (if i = lastRound dir then [] else roundsFrom dir (nextRound dir i)) := by
  unfold Config.rounds at hi
  cases dir <;> interval_cases i <;> decide

end Sys2Proof.Machine
end

