-- ==== Sys2Proof/Laws/State.lean ====
section
/-! SUPPORT. One lemma per field per update of the state, each true by `rfl`. -/

namespace Sys2Proof.Machine

variable (s : State)

@[simp] theorem record_A (e : Event) : (State.record e s).A = s.A := rfl
@[simp] theorem record_X (e : Event) : (State.record e s).X = s.X := rfl
@[simp] theorem record_L (e : Event) : (State.record e s).L = s.L := rfl
@[simp] theorem record_R (e : Event) : (State.record e s).R = s.R := rfl
@[simp] theorem record_W (e : Event) : (State.record e s).W = s.W := rfl
@[simp] theorem record_D (e : Event) : (State.record e s).D = s.D := rfl
@[simp] theorem record_I (e : Event) : (State.record e s).I = s.I := rfl
@[simp] theorem record_PH (e : Event) : (State.record e s).PH = s.PH := rfl
@[simp] theorem record_STATUS (e : Event) : (State.record e s).STATUS = s.STATUS := rfl
@[simp] theorem record_request (e : Event) : (State.record e s).request = s.request := rfl
@[simp] theorem record_key (e : Event) : (State.record e s).key = s.key := rfl
@[simp] theorem record_scripted (e : Event) : (State.record e s).scripted = s.scripted := rfl
@[simp] theorem record_script (e : Event) : (State.record e s).script = s.script := rfl
@[simp] theorem record_turns (e : Event) : (State.record e s).turns = s.turns := rfl
@[simp] theorem record_history (e : Event) : (State.record e s).history = s.history ++ [e] := rfl
@[simp] theorem record_freeKeys (e : Event) : (State.record e s).freeKeys = s.freeKeys := rfl

@[simp] theorem dropTurn_A : (State.dropTurn s).A = s.A := rfl
@[simp] theorem dropTurn_X : (State.dropTurn s).X = s.X := rfl
@[simp] theorem dropTurn_L : (State.dropTurn s).L = s.L := rfl
@[simp] theorem dropTurn_R : (State.dropTurn s).R = s.R := rfl
@[simp] theorem dropTurn_W : (State.dropTurn s).W = s.W := rfl
@[simp] theorem dropTurn_D : (State.dropTurn s).D = s.D := rfl
@[simp] theorem dropTurn_I : (State.dropTurn s).I = s.I := rfl
@[simp] theorem dropTurn_PH : (State.dropTurn s).PH = s.PH := rfl
@[simp] theorem dropTurn_STATUS : (State.dropTurn s).STATUS = s.STATUS := rfl
@[simp] theorem dropTurn_request : (State.dropTurn s).request = s.request := rfl
@[simp] theorem dropTurn_key : (State.dropTurn s).key = s.key := rfl
@[simp] theorem dropTurn_scripted : (State.dropTurn s).scripted = s.scripted := rfl
@[simp] theorem dropTurn_script : (State.dropTurn s).script = s.script := rfl
@[simp] theorem dropTurn_turns : (State.dropTurn s).turns = s.turns.tail := rfl
@[simp] theorem dropTurn_history : (State.dropTurn s).history = s.history := rfl
@[simp] theorem dropTurn_freeKeys : (State.dropTurn s).freeKeys = s.freeKeys := rfl

@[simp] theorem setHalves_A (h : Halves) : (State.setHalves h s).A = s.A := rfl
@[simp] theorem setHalves_X (h : Halves) : (State.setHalves h s).X = s.X := rfl
@[simp] theorem setHalves_L (h : Halves) : (State.setHalves h s).L = BitVec.ofNat 128 h.1 := rfl
@[simp] theorem setHalves_R (h : Halves) : (State.setHalves h s).R = BitVec.ofNat 128 h.2 := rfl
@[simp] theorem setHalves_W (h : Halves) : (State.setHalves h s).W = s.W := rfl
@[simp] theorem setHalves_D (h : Halves) : (State.setHalves h s).D = s.D := rfl
@[simp] theorem setHalves_I (h : Halves) : (State.setHalves h s).I = s.I := rfl
@[simp] theorem setHalves_PH (h : Halves) : (State.setHalves h s).PH = s.PH := rfl
@[simp] theorem setHalves_STATUS (h : Halves) : (State.setHalves h s).STATUS = s.STATUS := rfl
@[simp] theorem setHalves_request (h : Halves) : (State.setHalves h s).request = s.request := rfl
@[simp] theorem setHalves_key (h : Halves) : (State.setHalves h s).key = s.key := rfl
@[simp] theorem setHalves_scripted (h : Halves) : (State.setHalves h s).scripted = s.scripted := rfl
@[simp] theorem setHalves_script (h : Halves) : (State.setHalves h s).script = s.script := rfl
@[simp] theorem setHalves_turns (h : Halves) : (State.setHalves h s).turns = s.turns := rfl
@[simp] theorem setHalves_history (h : Halves) : (State.setHalves h s).history = s.history := rfl
@[simp] theorem setHalves_freeKeys (h : Halves) : (State.setHalves h s).freeKeys = s.freeKeys := rfl

@[simp] theorem raiseFault_A (c : Cause) : (raiseFault c s).A = s.A := rfl
@[simp] theorem raiseFault_X (c : Cause) : (raiseFault c s).X = s.X := rfl
@[simp] theorem raiseFault_L (c : Cause) : (raiseFault c s).L = s.L := rfl
@[simp] theorem raiseFault_R (c : Cause) : (raiseFault c s).R = s.R := rfl
@[simp] theorem raiseFault_W (c : Cause) : (raiseFault c s).W = s.W := rfl
@[simp] theorem raiseFault_D (c : Cause) : (raiseFault c s).D = s.D := rfl
@[simp] theorem raiseFault_I (c : Cause) : (raiseFault c s).I = s.I := rfl
@[simp] theorem raiseFault_PH (c : Cause) : (raiseFault c s).PH = s.PH := rfl
@[simp] theorem raiseFault_STATUS (c : Cause) : (raiseFault c s).STATUS = Status.faulted c s.STATUS := rfl
@[simp] theorem raiseFault_request (c : Cause) : (raiseFault c s).request = s.request := rfl
@[simp] theorem raiseFault_key (c : Cause) : (raiseFault c s).key = s.key := rfl
@[simp] theorem raiseFault_scripted (c : Cause) : (raiseFault c s).scripted = s.scripted := rfl
@[simp] theorem raiseFault_script (c : Cause) : (raiseFault c s).script = s.script := rfl
@[simp] theorem raiseFault_turns (c : Cause) : (raiseFault c s).turns = s.turns := rfl
@[simp] theorem raiseFault_history (c : Cause) : (raiseFault c s).history = s.history := rfl
@[simp] theorem raiseFault_freeKeys (c : Cause) : (raiseFault c s).freeKeys = s.freeKeys := rfl

@[simp] theorem startCommand_A (d : Direction) : (startCommand d s).A = s.A := rfl
@[simp] theorem startCommand_X (d : Direction) : (startCommand d s).X = s.X := rfl
@[simp] theorem startCommand_L (d : Direction) : (startCommand d s).L = s.L := rfl
@[simp] theorem startCommand_R (d : Direction) : (startCommand d s).R = s.R := rfl
@[simp] theorem startCommand_W (d : Direction) : (startCommand d s).W = s.W := rfl
@[simp] theorem startCommand_D (d : Direction) : (startCommand d s).D = s.D := rfl
@[simp] theorem startCommand_I (d : Direction) : (startCommand d s).I = BitVec.ofNat 2 (firstRound d) := rfl
@[simp] theorem startCommand_PH (d : Direction) : (startCommand d s).PH = .split := rfl
@[simp] theorem startCommand_STATUS (d : Direction) : (startCommand d s).STATUS = Status.accepted (Status.setDir d s.STATUS) := rfl
@[simp] theorem startCommand_request (d : Direction) : (startCommand d s).request = s.request := rfl
@[simp] theorem startCommand_key (d : Direction) : (startCommand d s).key = s.key := rfl
@[simp] theorem startCommand_scripted (d : Direction) : (startCommand d s).scripted = s.scripted := rfl
@[simp] theorem startCommand_script (d : Direction) : (startCommand d s).script = s.script := rfl
@[simp] theorem startCommand_turns (d : Direction) : (startCommand d s).turns = s.turns := rfl
@[simp] theorem startCommand_history (d : Direction) : (startCommand d s).history = s.history ++ [.accepted d] := rfl
@[simp] theorem startCommand_freeKeys (d : Direction) : (startCommand d s).freeKeys = s.freeKeys := rfl

@[simp] theorem completeCommand_A (x : Nat) : (completeCommand x s).A = s.A := rfl
@[simp] theorem completeCommand_X (x : Nat) : (completeCommand x s).X = BitVec.ofNat 256 x := rfl
@[simp] theorem completeCommand_L (x : Nat) : (completeCommand x s).L = 0 := rfl
@[simp] theorem completeCommand_R (x : Nat) : (completeCommand x s).R = 0 := rfl
@[simp] theorem completeCommand_W (x : Nat) : (completeCommand x s).W = 0 := rfl
@[simp] theorem completeCommand_D (x : Nat) : (completeCommand x s).D = 0 := rfl
@[simp] theorem completeCommand_I (x : Nat) : (completeCommand x s).I = 0 := rfl
@[simp] theorem completeCommand_PH (x : Nat) : (completeCommand x s).PH = .idle := rfl
@[simp] theorem completeCommand_STATUS (x : Nat) : (completeCommand x s).STATUS = Status.completed s.STATUS := rfl
@[simp] theorem completeCommand_request (x : Nat) : (completeCommand x s).request = s.request := rfl
@[simp] theorem completeCommand_key (x : Nat) : (completeCommand x s).key = s.key := rfl
@[simp] theorem completeCommand_scripted (x : Nat) : (completeCommand x s).scripted = s.scripted := rfl
@[simp] theorem completeCommand_script (x : Nat) : (completeCommand x s).script = s.script := rfl
@[simp] theorem completeCommand_turns (x : Nat) : (completeCommand x s).turns = s.turns := rfl
@[simp] theorem completeCommand_history (x : Nat) : (completeCommand x s).history = s.history ++ [.completed (Status.completed s.STATUS) (BitVec.ofNat 256 x)] := rfl
@[simp] theorem completeCommand_freeKeys (x : Nat) : (completeCommand x s).freeKeys = s.freeKeys := rfl

@[simp] theorem resetBlock_A : (resetBlock s).A = 0 := rfl
@[simp] theorem resetBlock_X : (resetBlock s).X = 0 := rfl
@[simp] theorem resetBlock_L : (resetBlock s).L = 0 := rfl
@[simp] theorem resetBlock_R : (resetBlock s).R = 0 := rfl
@[simp] theorem resetBlock_W : (resetBlock s).W = 0 := rfl
@[simp] theorem resetBlock_D : (resetBlock s).D = 0 := rfl
@[simp] theorem resetBlock_I : (resetBlock s).I = 0 := rfl
@[simp] theorem resetBlock_PH : (resetBlock s).PH = .idle := rfl
@[simp] theorem resetBlock_STATUS : (resetBlock s).STATUS = 0x00 := rfl
@[simp] theorem resetBlock_request : (resetBlock s).request = none := rfl
@[simp] theorem resetBlock_key : (resetBlock s).key = Config.freeKey s.freeKeys := rfl
@[simp] theorem resetBlock_scripted : (resetBlock s).scripted = s.scripted := rfl
@[simp] theorem resetBlock_script : (resetBlock s).script = s.script := rfl
@[simp] theorem resetBlock_turns : (resetBlock s).turns = s.turns := rfl
@[simp] theorem resetBlock_history : (resetBlock s).history = s.history := rfl
@[simp] theorem resetBlock_freeKeys : (resetBlock s).freeKeys = s.freeKeys + 1 := rfl

end Sys2Proof.Machine
end

