-- ==== Sys2Proof/Laws/Ops.lean ====
section
/-! SUPPORT. Everything a shared operation can do, said once: a command write, a host line, the sequencer's and the
agent's turn, one step. -/

namespace Sys2Proof.Machine

/-- Two states with the same registers and outstanding request of the block. -/
structure SameBlock (s t : State) : Prop where
  A : t.A = s.A
  X : t.X = s.X
  L : t.L = s.L
  R : t.R = s.R
  W : t.W = s.W
  D : t.D = s.D
  I : t.I = s.I
  PH : t.PH = s.PH
  STATUS : t.STATUS = s.STATUS
  request : t.request = s.request

theorem SameBlock.refl (s : State) : SameBlock s s := ⟨rfl, rfl, rfl, rfl, rfl, rfl, rfl, rfl, rfl, rfl⟩

theorem SameBlock.dropTurn (s : State) : SameBlock s s.dropTurn := ⟨rfl, rfl, rfl, rfl, rfl, rfl, rfl, rfl, rfl, rfl⟩

theorem SameBlock.trans {s t u : State} (h : SameBlock s t) (k : SameBlock t u) : SameBlock s u :=
  ⟨k.A.trans h.A, k.X.trans h.X, k.L.trans h.L, k.R.trans h.R, k.W.trans h.W, k.D.trans h.D, k.I.trans h.I,
    k.PH.trans h.PH, k.STATUS.trans h.STATUS, k.request.trans h.request⟩

/-- A command write does one of four things (R223, R228). -/
theorem acceptCommand_cases (dir : Direction) (s : State) :
    (s.busy = true ∧ acceptCommand dir s = s) ∨
    (s.busy = false ∧ s.A.toNat < 2 ∧
      acceptCommand dir s = raiseFault .badModulus { s with STATUS := Status.setDir dir s.STATUS }) ∨
    (s.busy = false ∧ 2 ≤ s.A.toNat ∧ s.A.toNat * s.A.toNat ≤ s.X.toNat ∧
      acceptCommand dir s = raiseFault .operandRange { s with STATUS := Status.setDir dir s.STATUS }) ∨
    (s.busy = false ∧ 2 ≤ s.A.toNat ∧ s.X.toNat < s.A.toNat * s.A.toNat ∧
      acceptCommand dir s = startCommand dir s) := by
  unfold acceptCommand
  cases hb : s.busy
  · by_cases hA : s.A.toNat < 2
    · simp [hA]
    · by_cases hX : s.A.toNat * s.A.toNat ≤ s.X.toNat
      · simp [hA, hX]
        omega
      · simp [hA, hX]
        omega
  · simp

/-- Accepted operands start the command (R223). -/
theorem acceptCommand_start {dir : Direction} {s : State} (hb : s.busy = false) (hA : 2 ≤ s.A.toNat)
    (hX : s.X.toNat < s.A.toNat * s.A.toNat) : acceptCommand dir s = startCommand dir s := by
  rcases acceptCommand_cases dir s with h | h | h | h
  · simp [hb] at h
  · omega
  · omega
  · exact h.2.2.2

/-- The command word of each constructor; any other word is illegal (R91 to R94). -/
theorem decodeCommand_cases (c : BitVec 8) :
    (c = 0x01 ∧ decodeCommand c = .ok .enc) ∨ (c = 0x03 ∧ decodeCommand c = .ok .dec) ∨
    (∃ d, c = encode (.nop d) ∧ decodeCommand c = .ok (.nop d)) ∨
    (4 ≤ c.toNat ∧ decodeCommand c = .error (.reservedBits c)) := by
  by_cases h : c.toNat < 4
  · have hc : c = 0 ∨ c = 1 ∨ c = 2 ∨ c = 3 := by
      rcases c with ⟨⟨n, hn⟩⟩
      have : n < 4 := h
      interval_cases n <;> simp
    rcases hc with rfl | rfl | rfl | rfl
    · exact .inr (.inr (.inl ⟨false, rfl, rfl⟩))
    · exact .inl ⟨rfl, rfl⟩
    · exact .inr (.inr (.inl ⟨true, rfl, rfl⟩))
    · exact .inr (.inl ⟨rfl, rfl⟩)
  · refine .inr (.inr (.inr ⟨by omega, ?_⟩))
    have hr : cmdRsv c ≠ 0 := by
      intro h0
      have h1 : (cmdRsv c).toNat = 0 := by rw [h0]; rfl
      have h2 : c.toNat < 256 := c.isLt
      simp only [cmdRsv, BitVec.extractLsb'_toNat, Nat.shiftRight_eq_div_pow] at h1
      omega
    rw [decodeCommand, if_pos hr]

/-- What a host line does to the block: nothing, a store, a fault record or the start of a command; all but the first
only while not busy (R226 to R231, R249). -/
inductive HostEffect (s t : State) : Prop where
  | same (h : SameBlock s t)
  | storeA (hb : s.busy = false) (v : BitVec 128) (h : SameBlock { s with A := v } t)
  | storeX (hb : s.busy = false) (v : BitVec 256) (h : SameBlock { s with X := v } t)
  | fault (hb : s.busy = false) (c : Cause) (h : SameBlock (raiseFault c s) t)
  | dirFault (hb : s.busy = false) (c : Cause) (dir : Direction)
      (h : SameBlock (raiseFault c { s with STATUS := Status.setDir dir s.STATUS }) t)
  | start (hb : s.busy = false) (dir : Direction) (hA : 2 ≤ s.A.toNat)
      (hX : s.X.toNat < s.A.toNat * s.A.toNat) (h : SameBlock (startCommand dir s) t)

theorem SameBlock.busy {s t : State} (h : SameBlock s t) : t.busy = s.busy := by
  simp only [State.busy, h.STATUS]

/-- The effect on a state is the effect on any state with the same block. -/
theorem HostEffect.of_sameBlock {s s' t : State} (k : SameBlock s s') (e : HostEffect s' t) : HostEffect s t := by
  cases e with
  | same h => exact .same (k.trans h)
  | storeA hb v h =>
    refine .storeA (k.busy ▸ hb) v (SameBlock.trans ?_ h)
    exact ⟨rfl, k.X, k.L, k.R, k.W, k.D, k.I, k.PH, k.STATUS, k.request⟩
  | storeX hb v h =>
    refine .storeX (k.busy ▸ hb) v (SameBlock.trans ?_ h)
    exact ⟨k.A, rfl, k.L, k.R, k.W, k.D, k.I, k.PH, k.STATUS, k.request⟩
  | fault hb c h =>
    refine .fault (k.busy ▸ hb) c (SameBlock.trans ?_ h)
    exact ⟨k.A, k.X, k.L, k.R, k.W, k.D, k.I, k.PH, by simp [k.STATUS], k.request⟩
  | dirFault hb c dir h =>
    refine .dirFault (k.busy ▸ hb) c dir (SameBlock.trans ?_ h)
    exact ⟨k.A, k.X, k.L, k.R, k.W, k.D, k.I, k.PH, by simp [k.STATUS], k.request⟩
  | start hb dir hA hX h =>
    refine .start (k.busy ▸ hb) dir (k.A ▸ hA) (k.A ▸ k.X ▸ hX) (SameBlock.trans ?_ h)
    exact ⟨k.A, k.X, k.L, k.R, k.W, k.D, rfl, rfl, by simp [k.STATUS], k.request⟩

theorem acceptCommand_effect (dir : Direction) (s : State) : HostEffect s (acceptCommand dir s) := by
  rcases acceptCommand_cases dir s with ⟨_, h⟩ | ⟨hb, _, h⟩ | ⟨hb, _, _, h⟩ | ⟨hb, hA, hX, h⟩ <;> rw [h]
  · exact .same (.refl s)
  · exact .dirFault hb _ _ (.refl _)
  · exact .dirFault hb _ _ (.refl _)
  · exact .start hb dir hA hX (.refl _)

/-- A command write answers a next state with one of the effects (R221, R241). -/
theorem writeCmd_effect (c : BitVec 8) (s : State) : ∃ t, writeCmd c s = .next t ∧ HostEffect s t := by
  unfold writeCmd
  rcases decodeCommand_cases c with ⟨_, h⟩ | ⟨_, h⟩ | ⟨d, _, h⟩ | ⟨_, h⟩ <;> rw [h]
  · exact ⟨_, rfl, acceptCommand_effect .forward s⟩
  · exact ⟨_, rfl, acceptCommand_effect .reverse s⟩
  · exact ⟨_, rfl, .same (.refl s)⟩
  · refine ⟨_, rfl, ?_⟩
    unfold illegalCommand
    cases hb : s.busy
    · exact .fault hb _ (.refl _)
    · exact .same (.refl s)

/-- Every host line answers a next state with one of the effects (R107, R109). -/
theorem runLine_effect (op : HostOp) (s : State) : ∃ t, runLine op s = .next t ∧ HostEffect s t := by
  cases op with
  | wrCmd c => exact writeCmd_effect c s
  | wrStatus v => exact ⟨_, rfl, .same (.refl s)⟩
  | wrA v =>
    refine ⟨_, rfl, ?_⟩
    unfold writeA
    cases hb : s.busy
    · exact .storeA hb v (.refl _)
    · exact .same (.refl s)
  | wrX v =>
    refine ⟨_, rfl, ?_⟩
    unfold writeX
    cases hb : s.busy
    · exact .storeX hb v (.refl _)
    · exact .same (.refl s)
  | rd r => exact ⟨_, rfl, .same ⟨rfl, rfl, rfl, rfl, rfl, rfl, rfl, rfl, rfl, rfl⟩⟩
  | wait =>
    refine ⟨_, rfl, .same ?_⟩
    unfold hostWait
    split <;> exact ⟨rfl, rfl, rfl, rfl, rfl, rfl, rfl, rfl, rfl, rfl⟩
  | key k => exact ⟨_, rfl, .same ⟨rfl, rfl, rfl, rfl, rfl, rfl, rfl, rfl, rfl, rfl⟩⟩
  | prf dg => exact ⟨_, rfl, .same ⟨rfl, rfl, rfl, rfl, rfl, rfl, rfl, rfl, rfl, rfl⟩⟩

theorem hostTurn_effect (s : State) : ∃ t, hostTurn s = .next t ∧ HostEffect s t := by
  unfold hostTurn
  cases hs : s.script with
  | nil => exact ⟨s, rfl, .same (.refl s)⟩
  | cons op rest =>
    obtain ⟨t, h, e⟩ := runLine_effect op { s with script := rest }
    refine ⟨t, h, HostEffect.of_sameBlock ?_ e⟩
    exact ⟨rfl, rfl, rfl, rfl, rfl, rfl, rfl, rfl, rfl, rfl⟩

/-- SPLIT on accepted operands (R183, R203). -/
theorem stepSplit_next {s : State} (hA : 2 ≤ s.A.toNat) (hX : s.X.toNat < s.A.toNat * s.A.toNat) :
    stepSplit s = .next (State.setHalves (splitHalves s.dir s.A.toNat s.X.toNat) { s with PH := .issue }) := by
  have hb := splitHalves_below s.dir (by omega : 0 < s.A.toNat) hX
  have hA' := s.A.isLt
  have h0 : ¬ s.A.toNat = 0 := by omega
  unfold stepSplit
  simp only [h0, if_false]
  rw [if_neg]
  rintro (h | h)
  · exact absurd hb.1 (by omega)
  · exact absurd hb.2 (by omega)

/-- MIX with a modulus and a round index of a run (R184, R204). -/
theorem stepMix_next {s : State} (hA : 0 < s.A.toNat) (hI : s.I ≠ 3) :
    stepMix s = .next (State.setHalves (mixHalves s.dir s.A.toNat s.roundValue s.halves)
      { s with
        W := BitVec.ofNat 128 s.roundValue
        PH := (afterMix s.dir s.I).1
        I := (afterMix s.dir s.I).2 }) := by
  unfold stepMix
  rw [if_neg (by omega), if_neg hI]

/-- ASM on halves below the modulus (R185, R205). -/
theorem stepAsm_next {s : State} (hL : s.L.toNat < s.A.toNat) (hR : s.R.toNat < s.A.toNat) :
    stepAsm s = .next (completeCommand (assemble s.dir s.A.toNat s.halves) s) := by
  have h := assemble_lt s.dir (a := s.A.toNat) (h := s.halves) ⟨hL, hR⟩
  have hA := s.A.isLt
  have h2 : s.A.toNat * s.A.toNat ≤ 2 ^ 128 * 2 ^ 128 := Nat.mul_le_mul hA.le hA.le
  unfold stepAsm
  simp only
  rw [if_neg]
  omega

theorem setHalves_toNat {s : State} {h : Halves} (hb : h.Below s.A.toNat) :
    (State.setHalves h s).L.toNat = h.1 ∧ (State.setHalves h s).R.toNat = h.2 := by
  have hA := s.A.isLt
  constructor
  · exact Nat.mod_eq_of_lt (lt_trans hb.1 hA)
  · exact Nat.mod_eq_of_lt (lt_trans hb.2 hA)

theorem roundValue_lt {s : State} (hA : 0 < s.A.toNat) : s.roundValue < s.A.toNat := Nat.mod_lt _ hA

theorem roundValue_toNat {s : State} (hA : 0 < s.A.toNat) :
    (BitVec.ofNat 128 s.roundValue).toNat = s.roundValue :=
  Nat.mod_eq_of_lt (lt_trans (roundValue_lt hA) s.A.isLt)

end Sys2Proof.Machine
end

