-- ==== Sys2Proof/Laws/PerInstr.lean ====
section
/-! SUPPORT. The statements made of every command as syntax, one lemma per constructor. -/

namespace Sys2Proof.Laws.RoundTrip

/-- The command is well formed, its word has its reserved bits zero (R90), and the decoder reads the command back from
that word, whether as a word or as the first octet of a string (R91 to R93, R105). -/
def Statement (i : Instr) : Prop :=
  i.wellFormed = true ∧ cmdRsv (encode i) = 0 ∧ decodeCommand (encode i) = .ok i ∧
    (∀ rest : Octets, decode (encode i :: rest) = .ok (i, rest)) ∧
    decodeTableWord 8 (encode i).toNat = some i

theorem enc : Statement .enc := ⟨rfl, rfl, rfl, fun _ => rfl, rfl⟩

theorem dec : Statement .dec := ⟨rfl, rfl, rfl, fun _ => rfl, rfl⟩

theorem nop (dir : Bool) : Statement (.nop dir) := by
  cases dir <;> exact ⟨rfl, rfl, rfl, fun _ => rfl, rfl⟩

end Sys2Proof.Laws.RoundTrip
end

