-- ==== Sys2Proof/Laws/Step.lean ====
section
/-! SUPPORT. What a step is for each turn, and how a run unfolds. -/

namespace Sys2Proof.Machine

/-- A host turn runs the oldest line of the script, with the line and the turn taken. -/
theorem step_host {s : State} {op : HostOp} {rest : List HostOp} (h : s.hostNext op rest) :
    step s = runLine op (s.afterLine rest) := by
  have e : step s = hostTurn s.dropTurn := by unfold step; rw [h.1]; rfl
  have hs : s.dropTurn.script = op :: rest := h.2
  rw [e]; unfold hostTurn; rw [hs]; rfl

theorem step_sequencer {s : State} (h : s.nextTurn = .sequencer) : step s = sequencerTurn s.dropTurn := by
  unfold step; rw [h]; rfl

theorem step_prf {s : State} (h : s.nextTurn = .prf) : step s = prfTurn s.dropTurn := by
  unfold step; rw [h]; rfl

theorem step_reset {s : State} (h : s.nextTurn = .reset) : step s = .next (resetBlock s.dropTurn) := by
  unfold step; rw [h]; rfl

theorem run_zero (s : State) : run 0 s = .next s := rfl

theorem run_succ {s t : State} (k : Nat) (h : step s = .next t) : run (k + 1) s = run k t := by
  have e := Host.Core.run.eq_2 Sys2Proof.core s k
  have h' : Sys2Proof.core.step s = .next t := h
  rw [h'] at e
  exact e

/-- A run whose next turn is the head of the list. -/
theorem run_turn {k : Nat} {s t : State} {tn : Turn} {ts : List Turn} (hs : s.turns = tn :: ts)
    (h : takeTurn tn { s with turns := ts } = .next t) : run (k + 1) s = run k t := by
  apply run_succ
  unfold step State.nextTurn State.dropTurn
  rw [hs]; exact h

end Sys2Proof.Machine
end

