-- ==== Sys2Proof/Tests/Slice0.lean ====
section
/-! SUPPORT. Tests of the model against the vectors of spec/95_test_vectors.md and the encodings of
spec/30_encoding.md, and for each statement with hypotheses a state that meets them. -/

namespace Sys2Proof.Tests

open Sys2Proof Sys2Proof.Machine

/-! ## Small states -/

/-- The next state, if there is one. -/
def got : Result → Option State
  | .next s => some s
  | .fault _ => none
  | .refused _ => none

/-- The shorthand `dg(v)` of 95_test_vectors.md: 32 octets, big-endian. -/
def dg (v : Nat) : Digest := Vector.ofFn fun i : Fin 32 => BitVec.ofNat 8 (v / 256 ^ (31 - i.val))

/-- An idle block with operands loaded. -/
def idle (a x : Nat) : State := { State.reset with A := BitVec.ofNat 128 a, X := BitVec.ofNat 256 x }

/-- A block inside a command, before it has anything in `W` and `D`. -/
def inside (ph : Phase) (dir : Direction) (i a x l r : Nat) : State :=
  { idle a x with
    PH := ph
    STATUS := if dir = .forward then 0x01 else 0x09
    I := BitVec.ofNat 2 i
    L := BitVec.ofNat 128 l
    R := BitVec.ofNat 128 r }

/-- A block in WAIT, its request outstanding. -/
def waiting (dir : Direction) (i a x l r : Nat) : State :=
  { inside .wait dir i a x l r with
    request := some (message i (if dir = .forward then r else l)) }

/-- A host line placed as the next step. -/
def withLine (op : HostOp) (s : State) : State := { s with script := [op], turns := [.host] }

/-- A turn placed as the next step. -/
def withTurn (t : Turn) (s : State) : State := { s with turns := [t] }

/-- A PRF function that answers by the round index of the message. -/
def byRound (d0 d1 d2 : Nat) (m : Octets) : Digest :=
  if m.take 4 = [0, 0, 0, 0] then dg d0 else if m.take 4 = [0, 0, 0, 1] then dg d1 else dg d2

/-! ## Syntax and encoding -/

/-- R61: a value too wide for its register cannot be carried; the widest that can is accepted. A command has no field,
so `Instr` has no ill-formed term (R90). -/
theorem test_wellFormed :
    Transaction.wellFormed (.write 0 256) = false ∧ Transaction.wellFormed (.write 1 256) = false ∧
    Transaction.wellFormed (.write 2 (2 ^ 128)) = false ∧ Transaction.wellFormed (.write 3 (2 ^ 256)) = false ∧
    Transaction.wellFormed (.write 0 255) = true ∧ Transaction.wellFormed (.write 2 (2 ^ 128 - 1)) = true ∧
    Transaction.wellFormed (.write 3 (2 ^ 256 - 1)) = true ∧ Transaction.wellFormed (.read 3) = true := by decide

/-- R91: `RSV = 000000`, `DIR = 0`, `START = 1`. -/
theorem test_decode_enc : decode [0b00000001, 0xAA] = .ok (.enc, [0xAA]) := by rfl

/-- R92: `RSV = 000000`, `DIR = 1`, `START = 1`. -/
theorem test_decode_dec : decode [0b00000011] = .ok (.dec, []) := by rfl

/-- R93: `RSV = 000000`, `DIR` any, `START = 0`. -/
theorem test_decode_nop : decode [0b00000000] = .ok (.nop false, []) ∧ decode [0b00000010] = .ok (.nop true, []) :=
  ⟨rfl, rfl⟩

/-- R94 and V56: reserved bits set, with every value of `DIR` and `START`. -/
theorem test_decode_illegal :
    ∀ c ∈ [0x04#8, 0x05#8, 0x06#8, 0x07#8, 0x40#8, 0x80#8, 0xFF#8], (decodeCommand c).toOption = none := by decide

/-- The rows of spec/opcode_table.json, and an illegal word, through the table's numbering. -/
theorem test_decodeTableWord :
    decodeTableWord 8 0x01 = some .enc ∧ decodeTableWord 8 0x03 = some .dec ∧ decodeTableWord 8 0x00 = some (.nop false) ∧
    decodeTableWord 8 0x02 = some (.nop true) ∧ decodeTableWord 8 0x05 = none := by decide

/-- R107, program P1: `WR A, 10` is `(W, 2, 0x0a)`, `ENC` is `(W, 0, 0x01)`, `RD X` is `(R, 3)`. -/
theorem test_script_lines :
    HostOp.transaction (.wrA 10) = some (.write 2 10) ∧ HostOp.transaction (Instr.line .enc) = some (.write 0 1) ∧
    HostOp.transaction (.rd .x) = some (.read 3) := by decide

/-! ## Commands: 95_test_vectors.md section 2.5 -/

/-- V50, V52, V53. -/
theorem test_enc :
    (got (exec .enc (idle 0 0))).map (fun s => (s.STATUS, s.X)) = some (0x24, 0) ∧
    (got (exec .enc (idle 2 4))).map (fun s => (s.STATUS, s.X)) = some (0x34, 4) ∧
    (got (exec .enc (idle 2 3))).map (fun s => (s.STATUS, s.PH, s.I)) = some (0x01, .split, 0) := by decide

/-- V51, V54, V55. -/
theorem test_dec :
    (got (exec .dec (idle 1 0))).map (fun s => (s.STATUS, s.X)) = some (0x2C, 0) ∧
    (got (exec .dec (idle 100 10000))).map (fun s => (s.STATUS, s.X)) = some (0x3C, 10000) ∧
    (got (exec .dec (idle 100 9999))).map (fun s => (s.STATUS, s.PH, s.I)) = some (0x09, .split, 2) := by decide

/-- V58. -/
theorem test_nop :
    (got (exec (.nop false) { idle 2 3 with STATUS := 0x0A })).map (·.STATUS) = some 0x0A ∧
    (got (exec (.nop true) { idle 2 3 with STATUS := 0x0A })).map (·.STATUS) = some 0x0A := by decide

/-- V56, V57, V60. -/
theorem test_illegal_word :
    (∀ c ∈ [0x04#8, 0x05#8, 0x80#8, 0xFF#8], (got (writeCmd c State.reset)).map (·.STATUS) = some 0x14) ∧
    (got (writeCmd 0x40 { idle 1 0 with STATUS := 0x2C })).map (·.STATUS) = some 0x1C ∧
    (got (writeCmd 0x07 (idle 0 5))).map (·.STATUS) = some 0x14 := by decide

/-- V59: five writes while busy, each dropped. -/
theorem test_dropped_writes :
    ∀ op ∈ [HostOp.wrA 7, .wrX 1, .wrCmd 0x03, .wrCmd 0xFF, .wrStatus 0xFF],
      got (step (withLine op (inside .split .forward 0 100 1234 0 0))) =
        some (inside .split .forward 0 100 1234 0 0) := by decide

/-- V62, and R229, R230 in the middle of a command. -/
theorem test_reads :
    readReg .cmd (idle 7 5) = 0 ∧ readReg .status (inside .mix .reverse 1 7 5 0 0) = 0x09 ∧
    readReg .x (inside .mix .reverse 1 7 5 0 0) = 5 ∧ readReg .a (idle 7 5) = 7 := by decide

/-! ## The steps of a command: the traces of 95_test_vectors.md section 2.3 and the examples of the step rules -/

/-- R183 and R203. -/
theorem test_split :
    (got (stepSplit (inside .split .forward 0 100 1234 0 0))).map (fun s => (s.L, s.R, s.PH)) =
      some (34, 12, .issue) ∧
    (got (stepSplit (inside .split .reverse 2 100 9747 0 0))).map (fun s => (s.L, s.R, s.PH)) =
      some (97, 47, .issue) := by decide

/-- R165, and round 2 of V21. -/
theorem test_issue :
    (got (stepIssue (inside .issue .forward 0 100 1234 34 12))).map (·.request) =
      some (some [0, 0, 0, 0, 0, 0, 0, 1, 0x0c]) ∧
    (got (stepIssue (inside .issue .reverse 2 10 0 0 0))).map (·.request) =
      some (some [0, 0, 0, 2, 0, 0, 0, 0]) := by decide

/-- R167: all octets `ff` give `2^256 - 1`; the scripted answer is used up. -/
theorem test_respond :
    (got (prfTurn { waiting .forward 0 10 57 7 5 with scripted := [dg (2 ^ 256 - 1)] })).map
      (fun s => (s.D.toNat, s.PH, s.request, s.scripted)) = some (2 ^ 256 - 1, .mix, none, []) := by decide

/-- Rounds 0 of V23 and 2 of V20: a sum of 129 bits, and the last round. -/
theorem test_mix_forward :
    (got (stepMix { inside .mix .forward 0 (2 ^ 128 - 1) ((2 ^ 128 - 1) ^ 2 - 1) (2 ^ 128 - 2) (2 ^ 128 - 2) with
        D := BitVec.ofNat 256 (2 ^ 255) })).map (fun s => (s.L.toNat, s.R.toNat, s.I, s.PH)) =
      some (2 ^ 128 - 2, 2 ^ 127 - 1, 1, .issue) ∧
    (got (stepMix { inside .mix .forward 2 10 57 5 0 with D := BitVec.ofNat 256 (2 ^ 256 - 1) })).map
      (fun s => (s.W, s.L, s.R, s.I, s.PH)) = some (5, 0, 0, 2, .asm) := by decide

/-- R204 and round 0 of V21. -/
theorem test_mix_reverse :
    (got (stepMix { inside .mix .reverse 2 100 9747 97 47 with D := 63 })).map
      (fun s => (s.W, s.L, s.R, s.I, s.PH)) = some (63, 84, 97, 1, .issue) ∧
    (got (stepMix { inside .mix .reverse 0 10 0 5 5 with D := 8 })).map
      (fun s => (s.W, s.L, s.R, s.I, s.PH)) = some (8, 7, 5, 0, .asm) := by decide

/-- R185 and the end of V21. -/
theorem test_asm :
    (got (stepAsm (inside .asm .forward 2 100 1234 97 47))).map (fun s => (s.X, s.L, s.R, s.I, s.STATUS, s.PH)) =
      some (9747, 0, 0, 0, 0x02, .idle) ∧
    (got (stepAsm (inside .asm .reverse 0 10 0 7 5))).map (fun s => (s.X, s.STATUS)) = some (57, 0x0A) := by decide

/-- Program P5: reset while a request is outstanding. The agent's key is a free value afterwards (log 2). -/
theorem test_reset :
    got (step (withTurn .reset (waiting .forward 0 100 1234 34 12))) =
      some { State.reset with key := Config.freeKey 0, freeKeys := 1 } := rfl

/-- V20, V22 (b), V23, V24, V25, V26 through the network as a function. -/
theorem test_network_forward :
    network .forward (byRound 8 255 (2 ^ 256 - 1)) 10 57 = 0 ∧
    network .forward (byRound 1 1 1) 2 3 = 1 ∧
    network .forward (byRound (2 ^ 255) 1 (6 * 2 ^ 128 - 7)) (2 ^ 128 - 1) ((2 ^ 128 - 1) ^ 2 - 1) = 2 ^ 127 - 2 ∧
    network .forward (byRound 0 7 (2 ^ 64 + 4)) (2 ^ 64 + 1) 0x100000000000000020000000000000000 =
      110680464442257309704 ∧
    network .forward (byRound 1 256 66047) 256 65535 = 65535 ∧
    network .forward (byRound 50 85 63) 100 1234 = 9747 := by decide

/-- V21, V23, V26 backward. -/
theorem test_network_reverse :
    network .reverse (byRound 8 255 (2 ^ 256 - 1)) 10 0 = 57 ∧
    network .reverse (byRound (2 ^ 255) 1 (6 * 2 ^ 128 - 7)) (2 ^ 128 - 1) (2 ^ 127 - 2) = (2 ^ 128 - 1) ^ 2 - 1 ∧
    network .reverse (byRound 50 85 63) 100 9747 = 1234 := by decide

/-- R172: the digest of V40's round 1 reduced modulo 100. -/
theorem test_round_value :
    0x2bc956f5db572ea5429489f8bfb9764529161af88f91a1a65306b927e3373371 % 100 = 85 ∧
    roundFunction (fun _ => dg 0x2bc956f5db572ea5429489f8bfb9764529161af88f91a1a65306b927e3373371) 100 1 84 = 85 := by
  decide

/-! ## Octet formats and the host contract: sections 2.1, 2.2, 1.3 and 2.6 -/

/-- V1, V2, V3, V4, V5. -/
theorem test_octet_strings :
    i2ospMin 0 = [] ∧ i2ospMin 255 = [0xff] ∧ i2ospMin 256 = [1, 0] ∧ i2ospMin 10000 = [0x27, 0x10] ∧
    enc32 5 = [0, 0, 0, 5] ∧ encVar 0 = [0, 0, 0, 0] ∧ encVar 12 = [0, 0, 0, 1, 0x0c] ∧
    encVar 256 = [0, 0, 0, 2, 1, 0] ∧ os2ip [1, 0] = 256 ∧ os2ip [] = 0 ∧ os2ip [0, 0, 0xff] = 255 := by decide

/-- V6, V7, V8. -/
theorem test_messages :
    message 2 0 = [0, 0, 0, 2, 0, 0, 0, 0] ∧
    message 1 (2 ^ 64) = [0, 0, 0, 1, 0, 0, 0, 9, 1, 0, 0, 0, 0, 0, 0, 0, 0] ∧
    header 10000 [0, 1, 2, 3, 4] = [0, 0, 0, 2, 0x27, 0x10, 0, 0, 0, 5, 0, 1, 2, 3, 4] := by decide

/-- V10 to V16, V19. -/
theorem test_factor :
    (factor 4).toOption = some (2, 2) ∧ (factor 6).toOption = some (3, 2) ∧ (factor 32).toOption = some (8, 4) ∧
    (factor 1000).toOption = some (40, 25) ∧ (factor 10000).toOption = some (100, 100) ∧
    (factor 10007).toOption = none ∧ (factor 9999999999999999).toOption = some (100000001, 99999999) ∧
    (factor 2).toOption = none ∧ (factor 3).toOption = none := by decide

/-- The error kind, or none. -/
def kind {α : Type} : Except HostError α → Option HostError
  | .error e => some e
  | .ok _ => none

/-- S5, S6, S8, S9, S10, S12, S13, S14, V63, V64, V67, V68: all `InvalidArgument`. -/
theorem test_validate :
    kind (validate (some 32) (some 0) (some []) (some [1])) = some .invalidArgument ∧
    kind (validate (some (2 ^ 128)) (some 0) (some [1]) (some [1])) = some .invalidArgument ∧
    kind (validate (some 10007) (some 0) (some [1]) none) = some .invalidArgument ∧
    kind (validate (some 10007) (some 0) (some [1]) (some [])) = some .invalidArgument ∧
    kind (validate (some 10000) (some 10000) (some [1]) (some [1])) = some .invalidArgument ∧
    kind (validate none (some 0) (some [1]) (some [1])) = some .invalidArgument ∧
    kind (validate (some 32) none (some [1]) (some [1])) = some .invalidArgument ∧
    kind (validate (some 1) (some 0) (some [1]) (some [1])) = some .invalidArgument ∧
    kind (validate (some 0) (some 0) (some [1]) (some [1])) = some .invalidArgument ∧
    kind (validate (some 32) (some (-1)) (some [1]) (some [1])) = some .invalidArgument ∧
    kind (validate (some (2 ^ 128 - 1)) (some 0) (some [1]) (some [1])) = none := by decide

/-- S7, V65. -/
theorem test_fpeError :
    kind (encrypt (some 10007) (some 0) (some [1]) (some [1])) = some .fpeError ∧
    kind (decrypt (some 2) (some 0) (some [1]) (some [1])) = some .fpeError := ⟨rfl, rfl⟩

/-! ## Witnesses: for every statement with hypotheses, inputs that meet them, each clause at a boundary value -/

/-- A block in MIX after an answer. -/
def mixing (dir : Direction) (i a x l r d : Nat) : State :=
  { inside .mix dir i a x l r with D := BitVec.ofNat 256 d }

/-- The largest modulus with its largest operand (R223). -/
def largest : State := idle (2 ^ 128 - 1) ((2 ^ 128 - 1) ^ 2 - 1)

/-- States inside a command meet the invariant: one per phase, with the smallest modulus. -/
theorem inv_idle : (idle 2 3).Inv := by constructor <;> decide
theorem inv_split : (inside .split .reverse 2 2 3 0 0).Inv := by constructor <;> decide
theorem inv_issue : (inside .issue .forward 2 2 3 1 1).Inv := by constructor <;> decide
theorem inv_wait : (waiting .forward 0 2 3 1 1).Inv := by constructor <;> decide
theorem inv_wait_largest : (waiting .reverse 2 (2 ^ 128 - 1) 5 (2 ^ 128 - 2) 0).Inv := by constructor <;> decide
theorem inv_mix : (mixing .reverse 0 2 3 1 0 7).Inv := by constructor <;> decide
theorem inv_asm : (inside .asm .forward 2 2 3 1 1).Inv := by constructor <;> decide

theorem witness_ResetTurnResetsTheBlockAlone :
    (withTurn .reset (waiting .forward 0 100 1234 34 12)).nextTurn = .reset := by decide

/-- The first word, and the last word that decodes at all. -/
theorem witness_EncodeAndDecodeAgree :
    decodeCommand 0x00 = .ok (.nop false) ∧ decodeCommand 0x02 = .ok (.nop true) ∧ decodeCommand 0x03 = .ok .dec :=
  ⟨rfl, rfl, rfl⟩

theorem witness_LinesAndTransactionsAgree :
    HostOp.transaction (.wrX (BitVec.allOnes 256)) = some (.write 3 (2 ^ 256 - 1)) ∧
    Transaction.wellFormed (.write 3 (2 ^ 256 - 1)) = true ∧ Transaction.wellFormed (.write 3 (2 ^ 256)) = false := by
  decide

theorem witness_StepRunsTheDecodedCommand :
    (withLine (.wrCmd 0x03) (idle 2 3)).hostNext (.wrCmd 0x03) [] ∧ decodeCommand 0x03 = .ok .dec ∧
    (withLine (.wrCmd 0x04) (idle 2 3)).hostNext (.wrCmd 0x04) [] ∧
    decodeCommand 0x04 = .error (.reservedBits 0x04) ∧ decodeTableWord 8 0x01 = some .enc :=
  ⟨⟨rfl, rfl⟩, rfl, ⟨rfl, rfl⟩, rfl, rfl⟩

/-- The three clauses of acceptance on both sides of each bound: `A = 1`; `A = 2` with `X = 4` and `X = 3`. -/
theorem witness_AcceptanceOfEncAndDec :
    (idle 1 0).busy = false ∧ (idle 1 0).A.toNat < 2 ∧
    (idle 2 4).busy = false ∧ 2 ≤ (idle 2 4).A.toNat ∧ (idle 2 4).A.toNat * (idle 2 4).A.toNat ≤ (idle 2 4).X.toNat ∧
    (idle 2 3).busy = false ∧ 2 ≤ (idle 2 3).A.toNat ∧ (idle 2 3).X.toNat < (idle 2 3).A.toNat * (idle 2 3).A.toNat :=
  by decide

theorem witness_EncStartsTheForwardNetwork :
    largest.busy = false ∧ 2 ≤ largest.A.toNat ∧ largest.X.toNat < largest.A.toNat * largest.A.toNat := by decide

theorem witness_DecStartsTheReverseNetwork :
    (idle 2 0).busy = false ∧ 2 ≤ (idle 2 0).A.toNat ∧ (idle 2 0).X.toNat < (idle 2 0).A.toNat * (idle 2 0).A.toNat := by
  decide

/-- The smallest and the largest illegal word. -/
theorem witness_IllegalWordFaults :
    (withLine (.wrCmd 0x04) (idle 2 3)).hostNext (.wrCmd 0x04) [] ∧ (withLine (.wrCmd 0x04) (idle 2 3)).busy = false ∧
    4 ≤ (0x04#8).toNat ∧ (withLine (.wrCmd 0xFF) largest).hostNext (.wrCmd 0xFF) [] ∧ 4 ≤ (0xFF#8).toNat :=
  ⟨⟨rfl, rfl⟩, rfl, by decide, ⟨rfl, rfl⟩, by decide⟩

/-- A busy block under each kind of write, and a write of `STATUS` while idle. -/
theorem witness_DroppedWrites :
    (∀ op ∈ [HostOp.wrCmd 0x01, .wrA 7, .wrX 1],
      (withLine op (waiting .forward 0 2 3 1 1)).hostNext op [] ∧ (waiting .forward 0 2 3 1 1).busy = true ∧
        ((∃ c, op = .wrCmd c) ∨ (∃ v, op = .wrA v) ∨ ∃ v, op = .wrX v)) ∧
    (withLine (.wrStatus 0xFF) (idle 2 3)).hostNext (.wrStatus 0xFF) [] ∧ ∃ v, HostOp.wrStatus 0xFF = .wrStatus v := by
  refine ⟨?_, ⟨rfl, rfl⟩, _, rfl⟩
  intro op h
  simp only [List.mem_cons, List.not_mem_nil, or_false] at h
  rcases h with rfl | rfl | rfl
  · exact ⟨⟨rfl, rfl⟩, by decide, .inl ⟨_, rfl⟩⟩
  · exact ⟨⟨rfl, rfl⟩, by decide, .inr (.inl ⟨_, rfl⟩)⟩
  · exact ⟨⟨rfl, rfl⟩, by decide, .inr (.inr ⟨_, rfl⟩)⟩

theorem witness_RegisterWritesStoreAnyValue :
    (withLine (.wrA (BitVec.allOnes 128)) (idle 2 3)).hostNext (.wrA (BitVec.allOnes 128)) [] ∧
    (withLine (.wrX 0) (idle 2 3)).hostNext (.wrX 0) [] ∧ (idle 2 3).busy = false := ⟨⟨rfl, rfl⟩, ⟨rfl, rfl⟩, rfl⟩

theorem witness_HostReadsHaveNoSideEffect :
    ∀ r ∈ [HostReg.cmd, .status, .a, .x], (withLine (.rd r) (waiting .forward 0 2 3 1 1)).nextTurn = .host ∧
      (withLine (.rd r) (waiting .forward 0 2 3 1 1)).script = [.rd r] := by decide

/-- A poll of a busy block and of an idle one. -/
theorem witness_WaitPollsUntilNotBusy :
    (withLine .wait (waiting .forward 0 2 3 1 1)).hostNext .wait [] ∧ (waiting .forward 0 2 3 1 1).busy = true ∧
    (withLine .wait (idle 2 3)).hostNext .wait [] ∧ (idle 2 3).busy = false := ⟨⟨rfl, rfl⟩, by decide, ⟨rfl, rfl⟩, rfl⟩

/-- Each line on an idle block and on one with a request outstanding, the second with an answer already waiting. -/
theorem witness_KeyAndPrfLinesChangeTheAgentAlone :
    (withLine (.key (dg 5)) (idle 2 3)).hostNext (.key (dg 5)) [] ∧
    (withLine (.key (dg 5)) (waiting .forward 0 2 3 1 1)).hostNext (.key (dg 5)) [] ∧
    (withLine (.prf (dg 8)) (idle 2 3)).hostNext (.prf (dg 8)) [] ∧
    (withLine (.prf (dg 8)) { waiting .forward 0 2 3 1 1 with scripted := [dg 7] }).hostNext (.prf (dg 8)) [] ∧
    (waiting .forward 0 2 3 1 1).busy = true :=
  ⟨⟨rfl, rfl⟩, ⟨rfl, rfl⟩, ⟨rfl, rfl⟩, ⟨rfl, rfl⟩, by decide⟩

/-- A line that leaves the phase, and one that starts a command. -/
theorem witness_HostLinesLeaveTheInternals :
    (withLine (.key (dg 5)) (waiting .forward 0 2 3 1 1)).hostNext (.key (dg 5)) [] ∧
    (withLine (Instr.line .dec) (idle 2 3)).hostNext (commandOf .reverse).line [] ∧ (idle 2 3).busy = false :=
  ⟨⟨rfl, rfl⟩, ⟨rfl, rfl⟩, rfl⟩

/-- Two machines in different phases and with different halves that agree in what a host can read. -/
theorem witness_InternalsAreInvisibleToTheHost :
    let s := withLine (.rd .x) (waiting .forward 0 2 3 1 1)
    let t := withLine (.rd .x) (inside .asm .forward 2 2 3 0 1)
    s.hostNext (.rd .x) [] ∧ t.hostNext (.rd .x) [] ∧ s.A = t.A ∧ s.X = t.X ∧ s.STATUS = t.STATUS ∧ s.L ≠ t.L :=
  ⟨⟨rfl, rfl⟩, ⟨rfl, rfl⟩, rfl, rfl, rfl, by decide⟩

/-- Both directions, with the largest operand of the smallest modulus and with `X = 0`. -/
theorem witness_SplitLoadsTheHalves :
    let s := inside .split .forward 0 2 3 0 0
    let t := inside .split .reverse 2 2 0 0 0
    s.nextTurn = .sequencer ∧ s.PH = .split ∧ 2 ≤ s.A.toNat ∧ s.X.toNat < s.A.toNat * s.A.toNat ∧ s.dir = .forward ∧
    t.nextTurn = .sequencer ∧ t.PH = .split ∧ 2 ≤ t.A.toNat ∧ t.X.toNat < t.A.toNat * t.A.toNat ∧ t.dir = .reverse := by
  decide

theorem witness_IssueSendsTheMuxedHalf :
    let s := inside .issue .forward 2 2 3 1 0
    let t := inside .issue .reverse 0 2 3 1 0
    s.nextTurn = .sequencer ∧ s.PH = .issue ∧ s.I ≠ 3 ∧ s.dir = .forward ∧
    t.nextTurn = .sequencer ∧ t.PH = .issue ∧ t.I ≠ 3 ∧ t.dir = .reverse := by decide

theorem witness_RespondLatchesTheDigest :
    let s := withTurn .prf (waiting .forward 0 2 3 1 1)
    s.nextTurn = .prf ∧ s.PH = .wait ∧ s.request = some [0, 0, 0, 0, 0, 0, 0, 1, 1] ∧ s.scripted = [] := by decide

theorem witness_ScriptedAnswerReplacesHmac :
    let s : State := { withTurn .prf (waiting .forward 0 2 3 1 1) with scripted := [dg 8, dg 9] }
    s.nextTurn = .prf ∧ s.PH = .wait ∧ s.request = some [0, 0, 0, 0, 0, 0, 0, 1, 1] ∧ s.scripted = [dg 8, dg 9] := by
  decide

/-- The last round of each direction, and a round before it. -/
theorem witness_MixCombinesTheHalves :
    let s := mixing .forward 2 2 3 1 1 7
    let t := mixing .reverse 2 2 3 1 1 7
    let u := mixing .reverse 0 2 3 1 1 7
    s.nextTurn = .sequencer ∧ s.PH = .mix ∧ 2 ≤ s.A.toNat ∧ s.I ≠ 3 ∧ s.dir = .forward ∧ s.I = 2 ∧
    t.nextTurn = .sequencer ∧ t.PH = .mix ∧ 2 ≤ t.A.toNat ∧ t.I ≠ 3 ∧ t.dir = .reverse ∧ t.I ≠ 0 ∧
    u.dir = .reverse ∧ u.I = 0 ∧ (mixing .forward 1 2 3 1 1 7).I ≠ 2 := by decide

theorem witness_AsmDeliversTheResult :
    let s := inside .asm .forward 2 (2 ^ 128 - 1) 3 (2 ^ 128 - 2) (2 ^ 128 - 2)
    let t := inside .asm .reverse 0 2 3 1 1
    s.nextTurn = .sequencer ∧ s.PH = .asm ∧ s.L.toNat < s.A.toNat ∧ s.R.toNat < s.A.toNat ∧ s.dir = .forward ∧
    t.nextTurn = .sequencer ∧ t.PH = .asm ∧ t.L.toNat < t.A.toNat ∧ t.R.toNat < t.A.toNat ∧ t.dir = .reverse := by
  decide

theorem witness_BlockStaysInWaitUntilAnswered :
    let s := withLine (.wrA 7) (waiting .forward 0 2 3 1 1)
    let t := withTurn .sequencer (waiting .forward 0 2 3 1 1)
    s.PH = .wait ∧ s.busy = true ∧ s.nextTurn = .host ∧ t.PH = .wait ∧ t.busy = true ∧ t.nextTurn = .sequencer := by
  decide

/-- ASM by the sequencer, and RESPOND by the agent. -/
theorem witness_BlockWritesXOnlyInAsm :
    let s := inside .asm .forward 2 2 3 1 1
    let t : State := { withTurn .prf (waiting .forward 0 2 3 1 1) with scripted := [dg 8] }
    s.nextTurn = .sequencer ∧ (got (step s)).isSome = true ∧ t.nextTurn = .prf ∧ (got (step t)).isSome = true := by
  decide

theorem witness_EveryStepKeepsTheInvariant :
    (inside .asm .forward 2 2 3 1 1).Inv ∧ (got (step (inside .asm .forward 2 2 3 1 1))).isSome = true :=
  ⟨inv_asm, by decide⟩

theorem witness_NoStepStopsUnderTheInvariant : (idle 2 3).Inv ∧ (mixing .reverse 0 2 3 1 0 7).Inv :=
  ⟨inv_idle, inv_mix⟩

theorem witness_PhasesFollowTheFixedOrder :
    let s := inside .split .reverse 2 2 3 0 0
    s.Inv ∧ s.nextTurn ≠ .reset ∧ (got (step s)).map (·.PH) = some .issue := ⟨inv_split, by decide, by decide⟩

/-- A turn of the enabled agent, and a turn of another. -/
theorem witness_CommandProgressesStepByStep :
    let s := inside .issue .forward 2 2 3 1 1
    let t := waiting .forward 0 2 3 1 1
    s.Inv ∧ s.PH ≠ .idle ∧ s.nextTurn ≠ .reset ∧ some s.nextTurn = s.PH.enabledTurn ∧
    t.Inv ∧ t.PH ≠ .idle ∧ t.nextTurn ≠ .reset ∧ some t.nextTurn ≠ t.PH.enabledTurn :=
  ⟨inv_issue, by decide, by decide, by decide, inv_wait, by decide, by decide, by decide⟩

/-- The largest half, in the longest message, and an 8-octet message. -/
theorem witness_OutstandingRequestIsWellFormed :
    let s := waiting .reverse 2 (2 ^ 128 - 1) 5 (2 ^ 128 - 2) 0
    s.Inv ∧ s.PH = .wait ∧ s.request.map List.length = some 24 ∧
    (waiting .forward 2 2 3 1 0).request.map List.length = some 8 := ⟨inv_wait_largest, by decide, by decide, by decide⟩

theorem witness_ResultIsBelowTheSquare :
    let s := inside .asm .forward 2 2 3 1 1
    s.Inv ∧ s.PH = .asm ∧ s.nextTurn = .sequencer := ⟨inv_asm, rfl, rfl⟩

/-- A running command, and an idle block whose next line starts one. -/
theorem witness_InterleavingLeavesThePromisedResult :
    let s := inside .issue .forward 2 2 3 1 1
    let t := withLine (Instr.line .enc) (idle 2 3)
    s.Inv ∧ s.agentSteady ∧ s.nextTurn ≠ .reset ∧ s.PH ≠ .idle ∧
    t.Inv ∧ t.agentSteady ∧ t.nextTurn ≠ .reset ∧ t.PH = .idle ∧ (got (step t)).map (·.PH) = some .split :=
  ⟨inv_issue, ⟨rfl, by decide⟩, by decide, by decide, by constructor <;> decide, ⟨rfl, by decide⟩, by decide, rfl,
    by decide⟩

theorem witness_CommandComputesTheNetwork :
    (Instr.dec = .enc ∧ Direction.reverse = .forward ∨ Instr.dec = .dec ∧ Direction.reverse = .reverse) ∧
    (idle 2 3).busy = false ∧ 2 ≤ (idle 2 3).A.toNat ∧ (idle 2 3).X.toNat < (idle 2 3).A.toNat * (idle 2 3).A.toNat ∧
    (idle 2 3).scripted = [] := by decide

theorem witness_ScriptedEncDeliversTheClosedForm :
    let s : State := { idle 10 57 with scripted := [dg 8, dg 255, dg (2 ^ 256 - 1)] }
    s.busy = false ∧ 2 ≤ s.A.toNat ∧ s.X.toNat < s.A.toNat * s.A.toNat ∧
      s.scripted = dg 8 :: dg 255 :: dg (2 ^ 256 - 1) :: [] := by decide

theorem witness_OppositeCommandRestoresTheOperand :
    let s : State := { idle 2 3 with
      script := [Instr.line .enc, Instr.line .dec]
      turns := .host :: (commandTurns ++ .host :: (commandTurns ++ [])) }
    s.busy = false ∧ 2 ≤ s.A.toNat ∧ s.X.toNat < s.A.toNat * s.A.toNat ∧ s.scripted = [] ∧
      s.script = (commandOf .forward).line :: (commandOf (opposite .forward)).line :: [] ∧
      s.turns = Turn.host :: (commandTurns ++ Turn.host :: (commandTurns ++ [])) := by decide

/-- The least modulus, with its last operand. -/
theorem witness_NetworksAreInversePermutations : 2 ≤ 2 ∧ 3 < 2 * 2 ∧ opposite .forward = .reverse := by decide

/-- The halves of V26, in both directions. -/
theorem witness_ClosedFormsOfTheNetworks :
    let F := roundFunction (byRound 50 85 63) 100
    2 ≤ 100 ∧ 1234 < 100 * 100 ∧ 9747 < 100 * 100 ∧
    (34 = 1234 % 100 ∧ 12 = 1234 / 100 ∧ 84 = (34 + F 0 12) % 100 ∧ 97 = (12 + F 1 84) % 100 ∧
      47 = (84 + F 2 97) % 100) ∧
    97 = 9747 / 100 ∧ 47 = 9747 % 100 ∧ 84 = submod 47 (F 2 97) 100 ∧ 12 = submod 97 (F 1 84) 100 ∧
      34 = submod 84 (F 0 12) 100 := by decide

/-- The messages of V40's trace. -/
theorem witness_DecSendsTheMessagesOfEncReversed :
    2 ≤ 100 ∧ 1234 < 100 * 100 ∧
    requests .forward (byRound 50 85 63) 100 (roundsFrom .forward (firstRound .forward)) (splitHalves .forward 100 1234) =
      [[0, 0, 0, 0, 0, 0, 0, 1, 0x0c], [0, 0, 0, 1, 0, 0, 0, 1, 0x54], [0, 0, 0, 2, 0, 0, 0, 1, 0x61]] := by decide

theorem witness_RangeIsTheSquareAndNotTheModulus : 2 ≤ 3 ∧ 8 < 3 * 3 := by decide

/-- Both cases of the sum and of the difference, at their bounds. -/
theorem witness_ModularAddAndSubtract :
    0 < 10 ∧ (5 < 10 ∧ addmod 5 5 10 = 0 ∧ addmod 4 5 10 = 9) ∧ submod 0 1 10 = 9 ∧ submod 5 5 10 = 0 ∧
    ((9 : Nat) + 1) % 10 = 0 % 10 := by decide

theorem witness_MessagesAndHeadersReadBack :
    (2 : Nat) ^ 32 - 1 < 2 ^ 32 ∧ (i2ospMin (2 ^ 128 - 1)).length < 2 ^ 32 ∧ (i2ospMin 0).length < 2 ^ 32 ∧
    ([0, 1] : Octets).length < 2 ^ 32 := by decide

theorem witness_MessagesAndHeadersAreInjective :
    2 < 2 ^ 32 ∧ (i2ospMin 256).length < 2 ^ 32 ∧ message 2 256 = message (1 + 1) (255 + 1) ∧
    ([0, 1] : Octets).length < 2 ^ 32 ∧ header 6 [0, 1] = header (5 + 1) ([0] ++ [1]) := by decide

/-- The least modulus, the least prime and the least composite. -/
theorem witness_FactorizerFindsTheLargestDivisor :
    2 ≤ 2 ∧ 2 ≤ 4 ∧ (factor 4).toOption = some (2, 2) ∧ kind (factor 2) = some .fpeError := by decide

/-- An accepted call at the upper bounds, and a refused one. -/
theorem witness_ValidatorAcceptsTheContract :
    validate (some (2 ^ 128 - 1)) (some (2 ^ 128 - 2)) (some [1]) (some [2]) =
      .ok { n := 2 ^ 128 - 1, x := 2 ^ 128 - 2, k := [1], t := [2] } ∧
    validate (some 1) (some 0) (some [1]) (some [2]) = .error .invalidArgument := ⟨rfl, rfl⟩

/-- A modulus with two different factors, `6 = 3 * 2`, and the last operand below it. -/
theorem witness_ConformingHostLoadsLegalOperands :
    callScript .reverse (some 6) (some 5) (some [1]) (some [2]) =
      .ok (callLines .reverse (roundKey [1] 6 [2]) 3 5) := rfl

theorem witness_PublicOperationRunsOnTheBlock :
    let lines := callLines .forward (roundKey [1] 4 [2]) 2 3
    let s : State := { State.reset with
      script := lines ++ []
      turns := [.host, .host, .host, .host] ++ (commandTurns ++ ([.host, .host] ++ [])) }
    callScript .forward (some 4) (some 3) (some [1]) (some [2]) = .ok lines ∧ s.busy = false ∧ s.scripted = [] ∧
      s.script = lines ++ [] ∧
      s.turns = [Turn.host, .host, .host, .host] ++ (commandTurns ++ ([Turn.host, .host] ++ [])) := ⟨rfl, rfl, rfl, rfl, rfl⟩

end Sys2Proof.Tests
end

section
/-! SUPPORT. Modular addition and subtraction (R16, R17): a difference is the one residue that adds back to its minuend,
and every other fact about `submod` follows from that. -/

namespace Sys2Proof.Machine

/-- The sum of two residues needs at most one correction by the modulus (R16). -/
theorem addmod_eq_ite {u v m : Nat} (hu : u < m) (hv : v < m) :
    addmod u v m = if u + v < m then u + v else u + v - m := by
  unfold addmod
  split
  case isTrue h => exact Nat.mod_eq_of_lt h
  case isFalse h => rw [Nat.mod_eq_sub_mod (Nat.le_of_not_lt h), Nat.mod_eq_of_lt (by omega)]

/-- Adding the subtrahend back gives the minuend's residue (R17). -/
theorem submod_add_mod (u v : Nat) {m : Nat} (hm : 0 < m) : (submod u v m + v) % m = u % m := by
  have hv : m - v % m + v = m * (1 + v / m) := by
    have hlt := Nat.mod_lt v hm
    have hdiv := Nat.mod_add_div v m
    rw [Nat.mul_add, Nat.mul_one]
    omega
  calc (submod u v m + v) % m
      _ = (u + (m - v % m + v)) % m := by rw [submod, Nat.mod_add_mod, Nat.add_assoc]
      _ = u % m := by rw [hv, Nat.add_mul_mod_self_left]

/-- No other residue adds back to the minuend (R17). -/
theorem eq_submod_of_add_mod {r u v m : Nat} (hr : r < m) (h : (r + v) % m = u % m) : r = submod u v m := by
  have hm : 0 < m := Nat.zero_lt_of_lt hr
  have hsum : r + v ≡ submod u v m + v [MOD m] := h.trans (submod_add_mod u v hm).symm
  exact (hsum.add_right_cancel' v).eq_of_lt_of_lt hr (submod_lt u v hm)

/-- The difference of two residues borrows the modulus once when it would be negative (R17). -/
theorem submod_eq_ite {u v m : Nat} (hu : u < m) (hv : v < m) :
    submod u v m = if v ≤ u then u - v else u + m - v := by
  symm
  split
  case isTrue h => exact eq_submod_of_add_mod (by omega) (by rw [Nat.sub_add_cancel h])
  case isFalse h =>
    exact eq_submod_of_add_mod (by omega) (by rw [Nat.sub_add_cancel (by omega), Nat.add_mod_right])

/-- Settles O42: the sum is `addmod`'s definition; the difference is characterised by adding back, and its two cases are
residues that do so. -/
theorem modularAddAndSubtract : Obligations.ModularAddAndSubtract := fun u v _ hm =>
  ⟨rfl, addmod_eq_ite, submod_lt u v hm, submod_add_mod u v hm, fun _ => eq_submod_of_add_mod, submod_eq_ite⟩

end Sys2Proof.Machine
end

section
/-! SUPPORT. `I2OSP_min` is minimal (R20): its length is the least that holds the value, and a leading zero octet would
leave a shorter string of the same value. -/

namespace Sys2Proof.Machine

/-- A leading zero octet does not count (R19). -/
@[simp] theorem os2ip_zero_cons (s : Octets) : os2ip (0 :: s) = os2ip s := rfl

/-- `octetLen v` is the least number of octets that hold `v`. -/
theorem octetLen_le_iff_lt_pow {v n : Nat} : octetLen v ≤ n ↔ v < 256 ^ n :=
  ⟨fun h => (lt_pow_octetLen v).trans_le (Nat.pow_le_pow_right (by decide) h), octetLen_le_of_lt⟩

/-- The bit length over 8, rounded up (R20): both sides are the least number of octets that hold `v`. -/
theorem octetLen_eq_size (v : Nat) : octetLen v = (v.size + 7) / 8 := by
  refine eq_of_forall_ge_iff fun n => ?_
  have hpow : (256 : Nat) ^ n = 2 ^ (8 * n) := by rw [pow_mul]; rfl
  rw [octetLen_le_iff_lt_pow, hpow, ← Nat.size_le]
  omega

/-- No string of a given value is shorter than its minimal form (R20). -/
theorem i2ospMin_length_le_of_os2ip {s : Octets} {v : Nat} (h : os2ip s = v) : (i2ospMin v).length ≤ s.length := by
  rw [i2ospMin_length]
  exact octetLen_le_of_lt (h ▸ os2ip_lt s)

/-- With a zero first octet the rest would be a shorter string of the same value (R20). -/
theorem i2ospMin_head_ne_zero {v : Nat} {o : Octet} {rest : Octets} (h : i2ospMin v = o :: rest) : o ≠ 0 := by
  rintro rfl
  have hrest : os2ip rest = v := by rw [← os2ip_zero_cons, ← h, os2ip_i2ospMin]
  have hle := i2ospMin_length_le_of_os2ip hrest
  rw [h, List.length_cons] at hle
  omega

/-- Settles O43: value, minimality, length and first octet of `I2OSP_min`, each by its lemma. -/
theorem minimalOctetString : Obligations.MinimalOctetString :=
  ⟨rfl, fun v => ⟨os2ip_i2ospMin v, fun _ => i2ospMin_length_le_of_os2ip,
    (i2ospMin_length v).trans (octetLen_eq_size v), fun _ _ => i2ospMin_head_ne_zero⟩⟩

end Sys2Proof.Machine
end

section
/-! SUPPORT. A command without a usable modulus is refused (R48, R223): at `A < 2` the write of either command word
faults with `BAD_MODULUS`, whatever `X` holds. -/

namespace Sys2Proof.Machine

/-- The command of a direction is the acceptance of that direction (R180, R200, R223). -/
@[simp] theorem exec_commandOf (dir : Direction) (s : State) :
    exec (commandOf dir) s = .next (acceptCommand dir s) := by cases dir <;> rfl

/-- A modulus below 2 faults, and the direction stays written (R223, R243). -/
theorem acceptCommand_badModulus {dir : Direction} {s : State} (hb : s.busy = false) (hA : s.A.toNat < 2) :
    acceptCommand dir s = raiseFault .badModulus { s with STATUS := Status.setDir dir s.STATUS } := by
  rcases acceptCommand_cases dir s with ⟨hbusy, _⟩ | ⟨_, _, h⟩ | ⟨_, hA2, _⟩ | ⟨_, hA2, _⟩
  · simp [hb] at hbusy
  · exact h
  · omega
  · omega

/-- What a refused command leaves in `STATUS` (R249). -/
theorem acceptCommand_badModulus_reads {dir : Direction} {s : State} (hb : s.busy = false) (hA : s.A.toNat < 2) :
    Status.Reads (acceptCommand dir s).STATUS s.STATUS false false true dir Cause.badModulus.code := by
  rw [acceptCommand_badModulus hb hA, raiseFault_STATUS]
  exact faulted_setDir_reads .badModulus dir s.STATUS

/-- Settles O1: the reset values are fields of `State.reset`; it is not busy and its modulus is 0, so either command is
refused with `BAD_MODULUS`. -/
theorem resetValuesOfTheBlock : Obligations.ResetValuesOfTheBlock := by
  refine ⟨rfl, rfl, rfl, rfl, rfl, rfl, rfl, rfl, rfl, rfl, fun dir => ⟨_, exec_commandOf dir State.reset, ?_⟩⟩
  have hb : State.reset.busy = false := by decide
  have hA : State.reset.A.toNat < 2 := by decide
  obtain ⟨_, _, herr, _, hcause, _⟩ := acceptCommand_badModulus_reads (dir := dir) hb hA
  exact ⟨herr, hcause⟩

end Sys2Proof.Machine
end

section
/-! SUPPORT. A host read (R62, R72, R229 to R231): the value fits the register it is read from, and the event in
the history is the read's only trace besides the line and the turn it used. -/

namespace Sys2Proof.Machine

/-- Masking bits 7:6 keeps the residue of the six defined bits (R42). -/
theorem readable_toNat (v : BitVec 8) : (Status.readable v).toNat = v.toNat % 64 := by
  rw [Status.readable, BitVec.toNat_and]
  exact Nat.and_two_pow_sub_one_eq_mod v.toNat 6

/-- What is read fits the register's width (R62). -/
theorem readReg_lt (r : HostReg) (s : State) : readReg r s < 2 ^ r.width := by
  cases r with
  | cmd => exact Nat.two_pow_pos 8
  | status => exact (Status.readable s.STATUS).isLt
  | a => exact s.A.isLt
  | x => exact s.X.isLt

/-- A read line is one step, in every phase (R62, R72). -/
theorem step_read {s : State} {r : HostReg} {rest : List HostOp} (h : s.hostNext (.rd r) rest) :
    step s = .next (State.record (.readReturned r (readReg r s)) (s.afterLine rest)) := step_host h

/-- Settles O14: the step records `readReg r s`, which fits the register and is, register by register, the value
stated. -/
theorem hostReadsHaveNoSideEffect : Obligations.HostReadsHaveNoSideEffect := by
  intro s r rest h
  refine ⟨readReg r s, step_read h, readReg_lt r s, ?_, ?_, ?_, ?_⟩
  · rintro rfl; rfl
  · rintro rfl; exact readable_toNat s.STATUS
  · rintro rfl; rfl
  · rintro rfl; rfl

end Sys2Proof.Machine
end

section
/-! SUPPORT. The readers undo the octet formats (R105), so the formats are injective (R106). -/

namespace Sys2Proof.Machine

/-- Splitting at the end of a 4-octet integer (R21). -/
theorem drop_enc32_append (v : Nat) (rest : Octets) : (enc32 v ++ rest).drop Config.lenBytes = rest :=
  List.drop_left' (enc32_length v)

theorem take_enc32_append (v : Nat) (rest : Octets) : (enc32 v ++ rest).take Config.lenBytes = enc32 v :=
  List.take_left' (enc32_length v)

/-- `enc_var(v)` reads back as the minimal octets of `v`, whatever follows it (R105). -/
theorem readField_encVar_append (v : Nat) (rest : Octets) (hv : (i2ospMin v).length < 2 ^ 32) :
    readField (encVar v ++ rest) = some (i2ospMin v, rest) := by
  rw [encVar, List.append_assoc, readField_prefixed _ _ hv]

/-- A PRF message reads back as its index and its half (R105). -/
theorem readMessage_message {i v : Nat} (hi : i < 2 ^ 32) (hv : (i2ospMin v).length < 2 ^ 32) :
    readMessage (message i v) = some (i, v) := by
  have hlen : ¬ (message i v).length < Config.lenBytes := by rw [message_length, Config.lenBytes]; omega
  have hfield : readField (encVar v) = some (i2ospMin v, []) := by
    simpa using readField_encVar_append v [] hv
  rw [readMessage, if_neg hlen, message, drop_enc32_append, take_enc32_append, hfield]
  simp only [os2ip_enc32 hi, os2ip_i2ospMin]

/-- A header reads back as its modulus and its tweak (R105). -/
theorem readHeader_header {n : Nat} {t : Octets} (hn : (i2ospMin n).length < 2 ^ 32) (ht : t.length < 2 ^ 32) :
    readHeader (header n t) = some (n, t) := by
  have htweak : readField (enc32 t.length ++ t) = some (t, []) := by
    simpa using readField_prefixed t [] ht
  simp only [readHeader, header, readField_encVar_append n _ hn, htweak, os2ip_i2ospMin]

/-- Settles O45: equal strings read back equally, and the reader gives the arguments of either side. -/
theorem messagesAndHeadersAreInjective : Obligations.MessagesAndHeadersAreInjective := by
  constructor
  · intro i j v w hi hj hv hw h
    have hread : some (i, v) = some (j, w) := by
      rw [← readMessage_message hi hv, h, readMessage_message hj hw]
    simpa using hread
  · intro n n' t t' hn hn' ht ht' h
    have hread : some (n, t) = some (n', t') := by
      rw [← readHeader_header hn ht, h, readHeader_header hn' ht']
    simpa using hread

end Sys2Proof.Machine
end

section
/-! SUPPORT. The words the decoder rejects (R94). -/

namespace Sys2Proof.Machine

/-- Exactly the words from 4 on are illegal (R94): the words below 4 are the codes of commands. -/
theorem decodeCommand_eq_reservedBits_iff (c : BitVec 8) :
    decodeCommand c = .error (.reservedBits c) ↔ 4 ≤ c.toNat := by
  rcases decodeCommand_cases c with ⟨rfl, h⟩ | ⟨rfl, h⟩ | ⟨d, rfl, h⟩ | ⟨hc, h⟩ <;> rw [h]
  · simp
  · simp
  · cases d <;> simp [encode]
  · simp [hc]

/-- Settles O3: the four assigned words evaluate, and the illegal ones are those from 4 on. -/
theorem commandWordsDecode : Obligations.CommandWordsDecode :=
  ⟨rfl, rfl, rfl, rfl, fun c => (decodeCommand_eq_reservedBits_iff c).symm⟩

end Sys2Proof.Machine
end

section
/-! SUPPORT. The Validator (R122 to R127, R129): checks 3 to 6 on four present arguments are one condition, and no
branch of the Validator raises anything but `InvalidArgument`. -/

namespace Sys2Proof.Machine

/-- What checks 3 to 6 and R129 ask of four present arguments. -/
def CallAccepted (n x : Int) (k t : Octets) : Prop :=
  1 ≤ k.length ∧ 1 ≤ t.length ∧ t.length ≤ 2 ^ 32 - 1 ∧ 0 ≤ x ∧ x < n ∧ 2 ≤ n ∧ n < 2 ^ 128

/-- With all four arguments present either each check passes, or the Validator refuses (R124 to R127, R129). -/
theorem validate_some_cases (n x : Int) (k t : Octets) :
    (CallAccepted n x k t ∧
      validate (some n) (some x) (some k) (some t) = .ok { n := n.toNat, x := x.toNat, k := k, t := t }) ∨
    (¬ CallAccepted n x k t ∧ validate (some n) (some x) (some k) (some t) = .error .invalidArgument) := by
  have hmax : (2 : Int) ^ (8 * Config.maxBytes) = 2 ^ 128 := rfl
  rw [validate, hmax, CallAccepted]
  split_ifs with hk ht hx hn
  · exact .inr ⟨by omega, rfl⟩
  · exact .inr ⟨by omega, rfl⟩
  · exact .inr ⟨by omega, rfl⟩
  · exact .inr ⟨by omega, rfl⟩
  · exact .inl ⟨by omega, rfl⟩

/-- The Validator accepts four present arguments that pass the checks, or it refuses with `InvalidArgument`. -/
theorem validate_cases (n x : Option Int) (k t : Option Octets) :
    (∃ n' x' k' t', n = some n' ∧ x = some x' ∧ k = some k' ∧ t = some t' ∧ CallAccepted n' x' k' t' ∧
      validate n x k t = .ok { n := n'.toNat, x := x'.toNat, k := k', t := t' }) ∨
    validate n x k t = .error .invalidArgument :=
  match n, x, k, t with
  | none, _, _, _ => .inr rfl
  | some _, none, _, _ => .inr rfl
  | some _, some _, none, _ => .inr rfl
  | some _, some _, some _, none => .inr rfl
  | some n, some x, some k, some t =>
    (validate_some_cases n x k t).imp (fun h => ⟨n, x, k, t, rfl, rfl, rfl, rfl, h⟩) And.right

/-- Accepted arguments come out unchanged, as natural numbers (R122 to R127). -/
theorem validate_some_of_accepted {n x : Int} {k t : Octets} (h : CallAccepted n x k t) :
    validate (some n) (some x) (some k) (some t) = .ok { n := n.toNat, x := x.toNat, k := k, t := t } :=
  (validate_some_cases n x k t).elim And.right fun hrefused => absurd h hrefused.1

/-- Every refusal of the Validator is `InvalidArgument` (R122 to R127). -/
theorem validate_error {n x : Option Int} {k t : Option Octets} {e : HostError} (h : validate n x k t = .error e) :
    e = .invalidArgument := by
  rcases validate_cases n x k t with ⟨_, _, _, _, _, _, _, _, _, hok⟩ | herr
  · simp [hok] at h
  · simpa [herr] using h.symm

/-- What the Validator accepts (R122 to R127, R129). -/
theorem validate_eq_ok_iff {n x : Option Int} {k t : Option Octets} {c : CallInputs} :
    validate n x k t = .ok c ↔
      ∃ n' x' k' t', n = some n' ∧ x = some x' ∧ k = some k' ∧ t = some t' ∧ CallAccepted n' x' k' t' ∧
        c = { n := n'.toNat, x := x'.toNat, k := k', t := t' } := by
  constructor
  · intro h
    rcases validate_cases n x k t with ⟨n', x', k', t', hn, hx, hk, ht, hacc, hok⟩ | herr
    · exact ⟨n', x', k', t', hn, hx, hk, ht, hacc, Except.ok.inj (h.symm.trans hok)⟩
    · simp [herr] at h
  · rintro ⟨n', x', k', t', rfl, rfl, rfl, rfl, hacc, rfl⟩
    exact validate_some_of_accepted hacc

/-- Settles O47: the accepted calls and the one error kind, each by its lemma; `CallAccepted` is written out. -/
theorem validatorAcceptsTheContract : Obligations.ValidatorAcceptsTheContract :=
  ⟨fun n x k t c => by simp only [validate_eq_ok_iff, CallAccepted, and_assoc], fun _ _ _ _ _ => validate_error⟩

end Sys2Proof.Machine
end

section
/-! SUPPORT. The Factorizer (R131, R132): `isqrt` is the integer square root, the search returns the greatest divisor
up to its bound, and a number of at least 2 without a divisor up to its square root is prime. -/

namespace Sys2Proof.Machine

/-- From bounds `r * r ≤ n < (r + 2 ^ k) * (r + 2 ^ k)` the `k` bits left to find lead to the square root: each step
keeps the bounds and halves their distance. -/
theorem isqrtFrom_eq_sqrt {n k r : Nat} (hlo : r * r ≤ n) (hhi : n < (r + 2 ^ k) * (r + 2 ^ k)) :
    isqrtFrom n k r = n.sqrt := by
  induction k generalizing r with
  | zero => exact Nat.eq_sqrt.mpr ⟨hlo, hhi⟩
  | succ k ih =>
    have hsum : r + 2 ^ k + 2 ^ k = r + 2 ^ (k + 1) := by rw [pow_succ]; omega
    rw [isqrtFrom]
    split
    case isTrue h => exact ih h (by rwa [hsum])
    case isFalse h => exact ih hlo (Nat.lt_of_not_le h)

/-- `isqrt` starts with bits enough: a number is below the square of `2 ^ (log2 / 2 + 1)`. -/
theorem isqrt_eq_sqrt (n : Nat) : isqrt n = n.sqrt := by
  refine isqrtFrom_eq_sqrt (Nat.zero_le n) ?_
  calc n
      _ < 2 ^ (n.log2 + 1) := Nat.lt_log2_self
      _ ≤ 2 ^ (n.log2 / 2 + 1 + (n.log2 / 2 + 1)) := Nat.pow_le_pow_right (by decide) (by omega)
      _ = (0 + 2 ^ (n.log2 / 2 + 1)) * (0 + 2 ^ (n.log2 / 2 + 1)) := by rw [Nat.zero_add, pow_add]

/-- The candidates of the Factorizer that divide `n`: at least 2 and at most `d` (R131). -/
def divisorsUpTo (n d : Nat) : Set Nat := {e | 2 ≤ e ∧ e ≤ d ∧ e ∣ n}

@[simp] theorem mem_divisorsUpTo {n d e : Nat} : e ∈ divisorsUpTo n d ↔ 2 ≤ e ∧ e ≤ d ∧ e ∣ n := Iff.rfl

/-- No candidate is below 2. -/
theorem divisorsUpTo_eq_empty {n d : Nat} (h : d < 2) : divisorsUpTo n d = ∅ :=
  Set.eq_empty_of_forall_notMem fun _ ⟨h2, hd, _⟩ => absurd (h2.trans hd) (Nat.not_le_of_lt h)

/-- Raising the bound to a number that does not count adds no divisor. -/
theorem divisorsUpTo_succ_of_notMem {n d : Nat} (h : d + 1 ∉ divisorsUpTo n (d + 1)) :
    divisorsUpTo n (d + 1) = divisorsUpTo n d := by
  ext e
  have hne : e ∈ divisorsUpTo n (d + 1) → e ≠ d + 1 := fun he heq => h (heq ▸ he)
  simp only [mem_divisorsUpTo] at hne ⊢
  omega

/-- The search downward finds nothing where nothing divides, or else the greatest divisor (R131, R132). -/
theorem factorFrom_cases (n d : Nat) :
    (factorFrom n d = none ∧ divisorsUpTo n d = ∅) ∨
    ∃ b, factorFrom n d = some (n / b, b) ∧ IsGreatest (divisorsUpTo n d) b := by
  induction d with
  | zero => exact .inl ⟨rfl, divisorsUpTo_eq_empty (by decide)⟩
  | succ d ih =>
    rw [factorFrom]
    split_ifs with hsmall hdvd
    · exact .inl ⟨rfl, divisorsUpTo_eq_empty hsmall⟩
    · exact .inr ⟨d + 1, rfl, ⟨by omega, le_rfl, Nat.dvd_of_mod_eq_zero hdvd⟩, fun e he => he.2.1⟩
    · rwa [divisorsUpTo_succ_of_notMem fun h => hdvd (Nat.mod_eq_zero_of_dvd h.2.2)]

/-- A number of at least 2 is prime when no candidate up to its square root divides it (R128). -/
theorem divisorsUpTo_sqrt_eq_empty_iff {n : Nat} (hn : 2 ≤ n) : divisorsUpTo n n.sqrt = ∅ ↔ n.Prime := by
  rw [Nat.prime_def_le_sqrt, Set.eq_empty_iff_forall_notMem]
  simp only [mem_divisorsUpTo, not_and, hn, true_and]

/-- The Factorizer fails with `FpeError` on a prime, or gives the greatest divisor up to the square root and its
cofactor (R128, R131, R132). -/
theorem factor_cases {n : Nat} (hn : 2 ≤ n) :
    (factor n = .error .fpeError ∧ n.Prime) ∨
    ∃ b, factor n = .ok (n / b, b) ∧ IsGreatest (divisorsUpTo n n.sqrt) b ∧ ¬ n.Prime := by
  rw [factor, isqrt_eq_sqrt, ← divisorsUpTo_sqrt_eq_empty_iff hn]
  rcases factorFrom_cases n n.sqrt with ⟨h, hempty⟩ | ⟨b, h, hb⟩ <;> rw [h]
  · exact .inl ⟨rfl, hempty⟩
  · exact .inr ⟨b, rfl, hb, hb.nonempty.ne_empty⟩

/-- `FpeError` exactly for a prime (R128). -/
theorem factor_eq_fpeError_iff {n : Nat} (hn : 2 ≤ n) : factor n = .error .fpeError ↔ n.Prime := by
  rcases factor_cases hn with ⟨h, hp⟩ | ⟨b, h, _, hp⟩ <;> simp [h, hp]

/-- The Factorizer has no other error (R128, R131). -/
theorem factor_ne_invalidArgument {n : Nat} (hn : 2 ≤ n) : factor n ≠ .error .invalidArgument := by
  rcases factor_cases hn with ⟨h, _⟩ | ⟨b, h, _⟩ <;> simp [h]

/-- The Factorizer's pair is the greatest divisor up to the square root with its cofactor (R131): a second such divisor
would be equal to it, and of a prime there is none. -/
theorem factor_eq_ok_iff {n : Nat} (hn : 2 ≤ n) {a b : Nat} :
    factor n = .ok (a, b) ↔ IsGreatest (divisorsUpTo n n.sqrt) b ∧ a = n / b := by
  rcases factor_cases hn with ⟨h, hp⟩ | ⟨b', h, hb', _⟩
  · rw [h, (divisorsUpTo_sqrt_eq_empty_iff hn).mpr hp]
    simp [IsGreatest]
  · rw [h]
    constructor
    · rintro ⟨⟩
      exact ⟨hb', rfl⟩
    · rintro ⟨hb, rfl⟩
      rw [hb.unique hb']

/-- The greatest divisor up to the square root and its cofactor, in terms of products (R131). -/
theorem isGreatest_divisorsUpTo_sqrt_iff {n a b : Nat} :
    IsGreatest (divisorsUpTo n n.sqrt) b ∧ a = n / b ↔
      a * b = n ∧ 2 ≤ b ∧ b ≤ a ∧ ∀ d, 2 ≤ d → d * d ≤ n → d ∣ n → d ≤ b := by
  simp only [IsGreatest, mem_upperBounds, mem_divisorsUpTo, Nat.le_sqrt]
  constructor
  · rintro ⟨⟨⟨hb2, hbb, hdvd⟩, hmax⟩, rfl⟩
    exact ⟨Nat.div_mul_cancel hdvd, hb2, (Nat.le_div_iff_mul_le (by omega)).mpr hbb,
      fun d hd2 hdd hd => hmax d ⟨hd2, hdd, hd⟩⟩
  · rintro ⟨rfl, hb2, hba, hmax⟩
    exact ⟨⟨⟨hb2, Nat.mul_le_mul_right b hba, Nat.dvd_mul_left b a⟩, fun d ⟨hd2, hdd, hd⟩ => hmax d hd2 hdd hd⟩,
      (Nat.mul_div_cancel a (by omega)).symm⟩

/-- Settles O46: the pair, the prime case and the excluded error, each by its lemma about `factor`. -/
theorem factorizerFindsTheLargestDivisor : Obligations.FactorizerFindsTheLargestDivisor := fun _ hn =>
  ⟨fun _ _ => (factor_eq_ok_iff hn).trans (isGreatest_divisorsUpTo_sqrt_iff),
    factor_eq_fpeError_iff hn, factor_ne_invalidArgument hn⟩

end Sys2Proof.Machine
end

section
/-! SUPPORT. In WAIT the block moves for the PRF agent alone (R166): the sequencer has no step, and a host line changes
the block only while it is not busy. -/

namespace Sys2Proof.Machine

/-- A host turn with or without a line left to run. -/
theorem step_hostTurn {s : State} (h : s.nextTurn = .host) : step s = hostTurn s.dropTurn := by
  unfold step; rw [h]; rfl

/-- The sequencer's turn passes in WAIT (R166, log 5). -/
theorem sequencerTurn_wait {s : State} (h : s.PH = .wait) : sequencerTurn s = .next s := by
  unfold sequencerTurn; rw [h]

/-- Every effect of a host line but "nothing" needs a block that is not busy (R228). -/
theorem HostEffect.sameBlock_of_busy {s t : State} (e : HostEffect s t) (hb : s.busy = true) : SameBlock s t := by
  have impossible (h : s.busy = false) : SameBlock s t := absurd (hb.symm.trans h) (by decide)
  cases e with
  | same h => exact h
  | storeA h | storeX h | fault h | dirFault h | start h => exact impossible h

/-- While the block is busy a host turn leaves it alone, in every phase (R228). -/
theorem step_host_sameBlock {s : State} (hb : s.busy = true) (h : s.nextTurn = .host) :
    ∃ t, step s = .next t ∧ SameBlock s t := by
  have hdrop : SameBlock s s.dropTurn := .dropTurn s
  obtain ⟨t, ht, e⟩ := hostTurn_effect s.dropTurn
  exact ⟨t, (step_hostTurn h).trans ht, hdrop.trans (e.sameBlock_of_busy (hdrop.busy.trans hb))⟩

/-- In WAIT the sequencer's turn is used up and nothing else happens (R166). -/
theorem step_sequencer_wait {s : State} (hp : s.PH = .wait) (h : s.nextTurn = .sequencer) :
    step s = .next s.dropTurn := (step_sequencer h).trans (sequencerTurn_wait hp)

/-- Settles O24: a busy block is left alone by the host's turn, and in WAIT by the sequencer's. -/
theorem blockStaysInWaitUntilAnswered : Obligations.BlockStaysInWaitUntilAnswered := by
  intro s hp hb hturn
  have hsame : ∃ t, step s = .next t ∧ SameBlock s t := by
    rcases hturn with h | h
    · exact step_host_sameBlock hb h
    · exact ⟨s.dropTurn, step_sequencer_wait hp h, .dropTurn s⟩
  obtain ⟨t, ht, same⟩ := hsame
  exact ⟨t, ht, same.PH.trans hp, same.request, same.A, same.X, same.L, same.R, same.W, same.D, same.I, same.STATUS⟩

end Sys2Proof.Machine
end

section
/-! SUPPORT. The request and its answer: ISSUE sends the message of the present round (R165), RESPOND latches the whole
digest of the agent's answer (R167). -/

namespace Sys2Proof.Machine

/-- The message carries the right half for `ENC` (R163, R165). -/
theorem message_forward {s : State} (h : s.dir = .forward) :
    s.message = enc32 s.I.toNat ++ encVar s.R.toNat := by
  unfold State.message State.sent; rw [h]; rfl

/-- The message carries the left half for `DEC` (R163, R165). -/
theorem message_reverse {s : State} (h : s.dir = .reverse) :
    s.message = enc32 s.I.toNat ++ encVar s.L.toNat := by
  unfold State.message State.sent; rw [h]; rfl

/-- ISSUE with a round index of a run (R165). -/
theorem stepIssue_next {s : State} (hI : s.I ≠ 3) :
    stepIssue s = .next (State.record (.prfReq s.message) { s with request := some s.message, PH := .wait }) := by
  unfold stepIssue; rw [if_neg hI]

/-- In ISSUE the sequencer's turn sends the request of the present round (R165). -/
theorem sequencerTurn_issue {s : State} (h : s.PH = .issue) : sequencerTurn s = stepIssue s := by
  unfold sequencerTurn; rw [h]

/-- Settles O19: the step sends `State.message`, whose payload is the half of the direction. -/
theorem issueSendsTheMuxedHalf : Obligations.IssueSendsTheMuxedHalf := by
  intro s hturn hp hI
  have hstep : step s = stepIssue s.dropTurn := (step_sequencer hturn).trans (sequencerTurn_issue hp)
  exact ⟨s.message, hstep.trans (stepIssue_next hI), message_forward, message_reverse⟩

/-- RESPOND to the outstanding request, scripted or not (R109, R167). -/
theorem step_respond {s : State} {m : Octets} (hturn : s.nextTurn = .prf) (hp : s.PH = .wait)
    (hm : s.request = some m) :
    step s = .next (receiveDigest (agentAnswer m s).1 { s.dropTurn with scripted := (agentAnswer m s).2 }) := by
  rw [step_prf hturn]; unfold prfTurn; rw [dropTurn_PH, dropTurn_request, hp, hm]; rfl

/-- With no answer scripted the agent gives its own, and the queue stays as it is (R65, R167). -/
theorem agentAnswer_of_unscripted {s : State} (m : Octets) (h : s.scripted = []) :
    agentAnswer m s = (s.prf m, s.scripted) := by
  unfold agentAnswer; rw [h]

/-- Settles O20: the agent's own answer arrives, and the latch holds its value whole. -/
theorem respondLatchesTheDigest : Obligations.RespondLatchesTheDigest := by
  intro s m hturn hp hm hs
  have hstep := step_respond hturn hp hm
  rw [agentAnswer_of_unscripted m hs] at hstep
  exact ⟨_, hstep, digest_toNat (s.prf m)⟩

end Sys2Proof.Machine
end

section
/-! SUPPORT. The steps of the network: SPLIT loads the halves (R183, R203), MIX combines them (R184, R204), ASM delivers
the result (R185, R205). -/

namespace Sys2Proof.Machine

/-- A value below the modulus fits a half register (R33). -/
theorem toNat_ofNat_of_lt_modulus {s : State} {u : Nat} (h : u < s.A.toNat) : (BitVec.ofNat 128 u).toNat = u :=
  Nat.mod_eq_of_lt (lt_trans h s.A.isLt)

/-- An assembly of two halves below the modulus fits `X` (R185, R205). -/
theorem assemble_toNat {s : State} (hL : s.L.toNat < s.A.toNat) (hR : s.R.toNat < s.A.toNat) :
    (BitVec.ofNat 256 (assemble s.dir s.A.toNat s.halves)).toNat = assemble s.dir s.A.toNat s.halves := by
  have hsquare : s.A.toNat * s.A.toNat < 2 ^ 128 * 2 ^ 128 := Nat.mul_self_lt_mul_self s.A.isLt
  have hx : assemble s.dir s.A.toNat s.halves < s.A.toNat * s.A.toNat := assemble_lt s.dir ⟨hL, hR⟩
  exact Nat.mod_eq_of_lt (hx.trans hsquare)

/-- The rounds of `ENC` count up and round 2 is the last (R184). -/
theorem afterMix_forward (i : BitVec 2) :
    (i = 2 → (afterMix .forward i).1 = .asm ∧ (afterMix .forward i).2 = 2) ∧
    (i ≠ 2 → (afterMix .forward i).1 = .issue ∧ (afterMix .forward i).2 = i + 1) := by
  revert i; decide

/-- The rounds of `DEC` count down and round 0 is the last (R204). -/
theorem afterMix_reverse (i : BitVec 2) :
    (i = 0 → (afterMix .reverse i).1 = .asm ∧ (afterMix .reverse i).2 = 0) ∧
    (i ≠ 0 → (afterMix .reverse i).1 = .issue ∧ (afterMix .reverse i).2 = i - 1) := by
  revert i; decide

/-- In SPLIT the sequencer's turn is that phase's step (R35). -/
theorem sequencerTurn_split {s : State} (h : s.PH = .split) : sequencerTurn s = stepSplit s := by
  unfold sequencerTurn; rw [h]

/-- In MIX the sequencer's turn is that phase's step (R35). -/
theorem sequencerTurn_mix {s : State} (h : s.PH = .mix) : sequencerTurn s = stepMix s := by
  unfold sequencerTurn; rw [h]

/-- In ASM the sequencer's turn is that phase's step (R35). -/
theorem sequencerTurn_asm {s : State} (h : s.PH = .asm) : sequencerTurn s = stepAsm s := by
  unfold sequencerTurn; rw [h]

/-- The sequencer's turn in SPLIT, on accepted operands (R183, R203). -/
theorem step_split {s : State} (hturn : s.nextTurn = .sequencer) (hp : s.PH = .split) (hA : 2 ≤ s.A.toNat)
    (hX : s.X.toNat < s.A.toNat * s.A.toNat) :
    step s = .next (State.setHalves (splitHalves s.dir s.A.toNat s.X.toNat) { s.dropTurn with PH := .issue }) :=
  ((step_sequencer hturn).trans (sequencerTurn_split hp)).trans (stepSplit_next hA hX)

/-- The sequencer's turn in MIX, with a modulus and a round index of a run (R184, R204). -/
theorem step_mix {s : State} (hturn : s.nextTurn = .sequencer) (hp : s.PH = .mix) (hA : 0 < s.A.toNat)
    (hI : s.I ≠ 3) :
    step s = .next (State.setHalves (mixHalves s.dir s.A.toNat s.roundValue s.halves)
      { s.dropTurn with
        W := BitVec.ofNat 128 s.roundValue
        PH := (afterMix s.dir s.I).1
        I := (afterMix s.dir s.I).2 }) :=
  ((step_sequencer hturn).trans (sequencerTurn_mix hp)).trans (stepMix_next hA hI)

/-- The sequencer's turn in ASM, on halves below the modulus (R185, R205). -/
theorem step_asm {s : State} (hturn : s.nextTurn = .sequencer) (hp : s.PH = .asm) (hL : s.L.toNat < s.A.toNat)
    (hR : s.R.toNat < s.A.toNat) :
    step s = .next (completeCommand (assemble s.dir s.A.toNat s.halves) s.dropTurn) :=
  ((step_sequencer hturn).trans (sequencerTurn_asm hp)).trans (stepAsm_next hL hR)

/-- Settles O18: both halves of an accepted operand are below the modulus, so the registers hold them whole. -/
theorem splitLoadsTheHalves : Obligations.SplitLoadsTheHalves := by
  intro s hturn hp hA hX
  obtain ⟨hl, hr⟩ := setHalves_toNat (splitHalves_below s.dir (by omega) hX)
  refine ⟨_, _, step_split hturn hp hA hX, ?_, ?_⟩
  all_goals
    intro hd
    rw [hd] at hl hr ⊢
    exact ⟨hl, hr⟩

/-- Settles O22: the moved half is copied; the combined half is a residue of the modulus, so its register holds it
whole, and `submod` adds back to the old half. -/
theorem mixCombinesTheHalves : Obligations.MixCombinesTheHalves := by
  intro s hturn hp hA hI
  have hpos : 0 < s.A.toNat := by omega
  have hw := roundValue_toNat hpos
  refine ⟨_, _, _, _, _, step_mix hturn hp hpos hI, hw, fun hd => ?_, fun hd => ?_⟩
  · have hr := toNat_ofNat_of_lt_modulus (addmod_lt s.L.toNat s.roundValue hpos)
    rw [hd, hw]
    exact ⟨BitVec.ofNat_toNat _ _, hr, afterMix_forward s.I⟩
  · have hlt := submod_lt s.R.toNat s.roundValue hpos
    have hl := toNat_ofNat_of_lt_modulus hlt
    rw [hd, hw]
    exact ⟨BitVec.ofNat_toNat _ _, hl.trans_lt hlt, hl.symm ▸ submod_add_mod s.R.toNat s.roundValue hpos,
      afterMix_reverse s.I⟩

/-- Settles O23: the assembly of two halves below the modulus is below its square, so `X` holds it whole. -/
theorem asmDeliversTheResult : Obligations.AsmDeliversTheResult := by
  intro s hturn hp hL hR
  have hx := assemble_toNat hL hR
  refine ⟨_, _, step_asm hturn hp hL hR, completed_reads s.STATUS, ?_, ?_⟩
  all_goals
    intro hd
    rw [hd] at hx ⊢
    exact hx

end Sys2Proof.Machine
end

section
/-! SUPPORT. Each step of the network is undone by the same step of the opposite direction: the split and the assembly
undo each other, and a round with the same index sends the half it sent before, so it gets the same round value (R170,
R207). The opposite command runs the round indices backwards, so the steps cancel from the inside out. -/

namespace Sys2Proof.Machine

/-- A sum of a residue is undone by subtracting the same value (R207). -/
theorem submod_addmod {u m : Nat} (v : Nat) (hu : u < m) : submod (addmod u v m) v m = u :=
  (eq_submod_of_add_mod hu (Nat.mod_mod _ _).symm).symm

/-- A difference of a residue is undone by adding the same value (R207). -/
theorem addmod_submod {u m : Nat} (v : Nat) (hu : u < m) : addmod (submod u v m) v m = u :=
  (submod_add_mod u v (Nat.zero_lt_of_lt hu)).trans (Nat.mod_eq_of_lt hu)

@[simp] theorem opposite_opposite (dir : Direction) : opposite (opposite dir) = dir := by cases dir <;> rfl

/-- The assembly of two halves below the modulus is split by the opposite direction into the same halves: "note the
reversed extraction, mirroring the final assembly" (R203). -/
theorem splitHalves_assemble (dir : Direction) {a : Nat} {h : Halves} (hb : h.Below a) :
    splitHalves (opposite dir) a (assemble dir a h) = h := by
  obtain ⟨hl, hr⟩ := hb
  have hdigits {u v : Nat} (hv : v < a) : (a * u + v) / a = u ∧ (a * u + v) % a = v :=
    (Nat.div_mod_unique (Nat.zero_lt_of_lt hv)).mpr ⟨Nat.add_comm _ _, hv⟩
  cases dir
  case forward => exact Prod.ext (hdigits hr).1 (hdigits hr).2
  case reverse => exact Prod.ext (hdigits hl).2 (hdigits hl).1

/-- The halves of a split are assembled by the opposite direction into the same operand (R205). -/
theorem assemble_splitHalves (dir : Direction) (a x : Nat) :
    assemble (opposite dir) a (splitHalves dir a x) = x := by
  cases dir
  all_goals exact Nat.div_add_mod x a

/-- A round is undone by the opposite direction's round with the same index: the sent half is the same, so the round
value is, and the combination takes it back (R170, R207). -/
theorem networkRound_opposite (dir : Direction) (prf : Octets → Digest) {a : Nat} (i : Nat) {h : Halves}
    (hb : h.Below a) : networkRound (opposite dir) prf a (networkRound dir prf a h i) i = h := by
  obtain ⟨hl, hr⟩ := hb
  cases dir
  case forward => exact Prod.ext (submod_addmod (roundFunction prf a i h.2) hl) rfl
  case reverse => exact Prod.ext rfl (addmod_submod (roundFunction prf a i h.1) hr)

/-- Every run of rounds leaves both halves below the modulus (R33). -/
theorem foldl_networkRound_below (dir : Direction) (prf : Octets → Digest) {a : Nat} (rounds : List Nat) {h : Halves}
    (hb : h.Below a) : (rounds.foldl (networkRound dir prf a) h).Below a :=
  List.foldlRecOn rounds _ hb fun _ hb i _ => networkRound_below dir prf i hb

/-- A run of rounds is undone by the opposite direction's run over the same indices in reverse order (R207). -/
theorem foldl_networkRound_opposite (dir : Direction) (prf : Octets → Digest) {a : Nat} (rounds : List Nat)
    {h : Halves} (hb : h.Below a) :
    rounds.reverse.foldl (networkRound (opposite dir) prf a) (rounds.foldl (networkRound dir prf a) h) = h := by
  induction rounds generalizing h with
  | nil => rfl
  | cons i is ih =>
    rw [List.reverse_cons, List.foldl_append, List.foldl_cons, List.foldl_cons, ih (networkRound_below dir prf i hb)]
    exact networkRound_opposite dir prf i hb

/-- The opposite command runs the round indices in reverse order (R34). -/
theorem roundsFrom_opposite (dir : Direction) :
    roundsFrom (opposite dir) (firstRound (opposite dir)) = (roundsFrom dir (firstRound dir)).reverse := by
  cases dir <;> decide

/-- The result of either direction is below the square of the modulus (R207, R208). -/
theorem network_lt (dir : Direction) (prf : Octets → Digest) {a x : Nat} (ha : 0 < a) (hx : x < a * a) :
    network dir prf a x < a * a :=
  assemble_lt dir (foldl_networkRound_below dir prf _ (splitHalves_below dir ha hx))

/-- The opposite network undoes the network: its split undoes the assembly, its rounds undo the rounds, its assembly
undoes the split (R207). -/
theorem network_opposite (dir : Direction) (prf : Octets → Digest) {a x : Nat} (ha : 0 < a) (hx : x < a * a) :
    network (opposite dir) prf a (network dir prf a x) = x := by
  have hb := splitHalves_below dir ha hx
  unfold network finish
  rw [splitHalves_assemble dir (foldl_networkRound_below dir prf _ hb), roundsFrom_opposite,
    foldl_networkRound_opposite dir prf _ hb, assemble_splitHalves]

/-- Settles O38: the opposite network keeps `[0, A^2)` and is an inverse on both sides, as its own opposite is the
network. -/
theorem networksAreInversePermutations : Obligations.NetworksAreInversePermutations := by
  intro dir prf a ha
  have hpos : 0 < a := by omega
  have hleft : ∀ x < a * a, network (opposite dir) prf a (network dir prf a x) = x :=
    fun _ => network_opposite dir prf hpos
  have hright : ∀ y < a * a, network dir prf a (network (opposite dir) prf a y) = y := fun y hy => by
    simpa using network_opposite (opposite dir) prf hpos hy
  exact ⟨hleft, Set.InvOn.bijOn ⟨hleft, hright⟩ (fun _ => network_lt dir prf hpos)
    (fun _ => network_lt (opposite dir) prf hpos)⟩

end Sys2Proof.Machine
end

section
/-! SUPPORT. Acceptance of `ENC` and `DEC` (R223): each outcome of the two checks on a block that is not busy, as the one
update of the state it makes. -/

namespace Sys2Proof.Machine

/-- An operand from `A * A` on faults, and the direction stays written (R223, R244). -/
theorem acceptCommand_operandRange {dir : Direction} {s : State} (hb : s.busy = false) (hA : 2 ≤ s.A.toNat)
    (hX : s.A.toNat * s.A.toNat ≤ s.X.toNat) :
    acceptCommand dir s = raiseFault .operandRange { s with STATUS := Status.setDir dir s.STATUS } := by
  rcases acceptCommand_cases dir s with ⟨hbusy, _⟩ | ⟨_, hA2, _⟩ | ⟨_, _, _, h⟩ | ⟨_, _, hX2, _⟩
  · simp [hb] at hbusy
  · omega
  · exact h
  · omega

/-- The first round index in the 2-bit register `I` (R34). -/
theorem ofNat_firstRound (dir : Direction) :
    BitVec.ofNat 2 (firstRound dir) = if dir = .forward then 0 else 2 := by cases dir <;> rfl

/-- The start of a command: `STATUS`, the round index, the phase and the event (R223). -/
theorem startCommand_eq (dir : Direction) (s : State) :
    startCommand dir s = { s with
      STATUS := Status.accepted (Status.setDir dir s.STATUS)
      I := if dir = .forward then 0 else 2
      PH := .split
      history := s.history ++ [.accepted dir] } := by
  rw [← ofNat_firstRound]; rfl

/-- Settles O8: the command of a direction is `acceptCommand` of that direction, and each of the three ranges of the
operands selects one of its branches. -/
theorem acceptanceOfEncAndDec : Obligations.AcceptanceOfEncAndDec := by
  refine ⟨rfl, rfl, fun i dir hi s hb => ?_⟩
  have hcommand : i = commandOf dir := by rcases hi with ⟨rfl, rfl⟩ | ⟨rfl, rfl⟩ <;> rfl
  rw [hcommand, exec_commandOf]
  refine ⟨fun hA => ?_, fun hA hX => ?_, fun hA hX => ?_⟩
  · rw [acceptCommand_badModulus hb hA]
    exact ⟨_, rfl, faulted_setDir_reads .badModulus dir s.STATUS⟩
  · rw [acceptCommand_operandRange hb hA hX]
    exact ⟨_, rfl, faulted_setDir_reads .operandRange dir s.STATUS⟩
  · rw [acceptCommand_start hb hA hX, startCommand_eq]
    exact ⟨_, rfl, accepted_setDir_reads dir s.STATUS⟩

end Sys2Proof.Machine
end

section
/-! SUPPORT. The host's writes (R220, R224 to R228): `NOP` and a dropped write leave the state as it is, an illegal word
while not busy is a fault entry, a register write while not busy is a store. -/

namespace Sys2Proof.Machine

variable {s : State}

/-- Taking the line and the turn does not reach `STATUS`. -/
@[simp] theorem afterLine_busy (s : State) (rest : List HostOp) : (s.afterLine rest).busy = s.busy := rfl

theorem exec_nop (d : Bool) (s : State) : exec (.nop d) s = .next s := rfl

theorem acceptCommand_of_busy (dir : Direction) (hb : s.busy = true) : acceptCommand dir s = s := if_pos hb

theorem illegalCommand_of_busy (hb : s.busy = true) : illegalCommand s = s := if_pos hb

theorem illegalCommand_of_not_busy (hb : s.busy = false) : illegalCommand s = raiseFault .illegalCmd s :=
  if_neg (by simp [hb])

theorem writeA_of_busy (v : BitVec 128) (hb : s.busy = true) : writeA v s = s := if_pos hb

theorem writeA_of_not_busy (v : BitVec 128) (hb : s.busy = false) : writeA v s = { s with A := v } :=
  if_neg (by simp [hb])

theorem writeX_of_busy (v : BitVec 256) (hb : s.busy = true) : writeX v s = s := if_pos hb

theorem writeX_of_not_busy (v : BitVec 256) (hb : s.busy = false) : writeX v s = { s with X := v } :=
  if_neg (by simp [hb])

/-- A word from 4 on runs no command (R94, R224). -/
theorem writeCmd_illegal {c : BitVec 8} (hc : 4 ≤ c.toNat) (s : State) :
    writeCmd c s = .next (illegalCommand s) := by
  rw [writeCmd, (decodeCommand_eq_reservedBits_iff c).2 hc]

/-- A command write while busy is dropped, whatever the word is (R228). -/
theorem writeCmd_of_busy (c : BitVec 8) (hb : s.busy = true) : writeCmd c s = .next s := by
  rcases decodeCommand_cases c with ⟨_, h⟩ | ⟨_, h⟩ | ⟨d, _, h⟩ | ⟨hc, _⟩
  · rw [writeCmd, h]
    exact congrArg Host.Outcome.next (acceptCommand_of_busy .forward hb)
  · rw [writeCmd, h]
    exact congrArg Host.Outcome.next (acceptCommand_of_busy .reverse hb)
  · rw [writeCmd, h]
    exact exec_nop d s
  · rw [writeCmd_illegal hc, illegalCommand_of_busy hb]

/-- Settles O7: both words evaluate, and `NOP` answers the state it is given. -/
theorem nopChangesNothing : Obligations.NopChangesNothing := ⟨rfl, rfl, exec_nop⟩

/-- Settles O11: the word runs `illegalCommand`, which while not busy is the fault entry with `ILLEGAL_CMD`. -/
theorem illegalWordFaults : Obligations.IllegalWordFaults := by
  intro s c rest h hb hc
  have hstep : step s = .next (illegalCommand (s.afterLine rest)) := (step_host h).trans (writeCmd_illegal hc _)
  rw [illegalCommand_of_not_busy ((afterLine_busy s rest).trans hb)] at hstep
  exact ⟨_, hstep, faulted_reads .illegalCmd s.STATUS⟩

/-- Settles O12: each kind of write leaves the state in which the line and the turn are taken. -/
theorem droppedWrites : Obligations.DroppedWrites := by
  intro s op rest h
  refine ⟨fun hb hop => ?_, ?_⟩
  · have hb' : (s.afterLine rest).busy = true := (afterLine_busy s rest).trans hb
    rcases hop with ⟨c, rfl⟩ | ⟨v, rfl⟩ | ⟨v, rfl⟩
    · exact (step_host h).trans (writeCmd_of_busy c hb')
    · exact (step_host h).trans (congrArg Host.Outcome.next (writeA_of_busy v hb'))
    · exact (step_host h).trans (congrArg Host.Outcome.next (writeX_of_busy v hb'))
  · rintro ⟨v, rfl⟩
    exact step_host h

/-- Settles O13: while not busy either write is the store of its value. -/
theorem registerWritesStoreAnyValue : Obligations.RegisterWritesStoreAnyValue := by
  constructor
  · intro s v rest h hb
    exact (step_host h).trans (congrArg Host.Outcome.next (writeA_of_not_busy v hb))
  · intro s v rest h hb
    exact (step_host h).trans (congrArg Host.Outcome.next (writeX_of_not_busy v hb))

end Sys2Proof.Machine
end

section
/-! SUPPORT. What one turn can do to the machine, said once: the move of the agent that the phase enables (R35), the
effect of a host line, a reset, or nothing. -/

namespace Sys2Proof.Machine

/-- The step of the sequencer or of the PRF agent that the phase enables (R35), with the state it leads to. -/
inductive AgentMove (s : State) : State → Prop where
  /-- SPLIT (R183, R203). -/
  | split (hp : s.PH = .split) :
      AgentMove s (State.setHalves (splitHalves s.dir s.A.toNat s.X.toNat) { s with PH := .issue })
  /-- ISSUE (R165). -/
  | issue (hp : s.PH = .issue) :
      AgentMove s (State.record (.prfReq s.message) { s with request := some s.message, PH := .wait })
  /-- RESPOND (R167). -/
  | respond (hp : s.PH = .wait) (m : Octets) (hm : s.request = some m) :
      AgentMove s (receiveDigest (agentAnswer m s).1 { s with scripted := (agentAnswer m s).2 })
  /-- MIX (R184, R204). -/
  | mix (hp : s.PH = .mix) :
      AgentMove s (State.setHalves (mixHalves s.dir s.A.toNat s.roundValue s.halves)
        { s with
          W := BitVec.ofNat 128 s.roundValue
          PH := (afterMix s.dir s.I).1
          I := (afterMix s.dir s.I).2 })
  /-- ASM (R185, R205). -/
  | asm (hp : s.PH = .asm) : AgentMove s (completeCommand (assemble s.dir s.A.toNat s.halves) s)

variable {s t : State}

/-- In IDLE the sequencer has no step (R35). -/
theorem sequencerTurn_idle (h : s.PH = .idle) : sequencerTurn s = .next s := by
  unfold sequencerTurn; rw [h]

/-- A SPLIT that does not stop is SPLIT's move. -/
theorem stepSplit_move (hp : s.PH = .split) (h : stepSplit s = .next t) : AgentMove s t := by
  simp only [stepSplit] at h
  split_ifs at h
  cases h
  exact .split hp

theorem stepIssue_move (hp : s.PH = .issue) (h : stepIssue s = .next t) : AgentMove s t := by
  rw [stepIssue] at h
  split_ifs at h
  cases h
  exact .issue hp

theorem stepMix_move (hp : s.PH = .mix) (h : stepMix s = .next t) : AgentMove s t := by
  rw [stepMix] at h
  split_ifs at h
  cases h
  exact .mix hp

theorem stepAsm_move (hp : s.PH = .asm) (h : stepAsm s = .next t) : AgentMove s t := by
  simp only [stepAsm] at h
  split_ifs at h
  cases h
  exact .asm hp

/-- A turn of the sequencer that does not stop passes or is the move of its phase (R35). -/
theorem sequencerTurn_cases (h : sequencerTurn s = .next t) : t = s ∨ AgentMove s t := by
  cases hp : s.PH with
  | idle => exact .inl (Host.Outcome.next.inj ((sequencerTurn_idle hp).symm.trans h)).symm
  | split => exact .inr (stepSplit_move hp ((sequencerTurn_split hp).symm.trans h))
  | issue => exact .inr (stepIssue_move hp ((sequencerTurn_issue hp).symm.trans h))
  | wait => exact .inl (Host.Outcome.next.inj ((sequencerTurn_wait hp).symm.trans h)).symm
  | mix => exact .inr (stepMix_move hp ((sequencerTurn_mix hp).symm.trans h))
  | asm => exact .inr (stepAsm_move hp ((sequencerTurn_asm hp).symm.trans h))

/-- A turn of the PRF agent passes or is RESPOND (R167, R171). -/
theorem prfTurn_cases (h : prfTurn s = .next t) : t = s ∨ AgentMove s t := by
  unfold prfTurn at h
  split at h
  case h_1 m hp hm =>
    cases h
    exact .inr (.respond hp m hm)
  case h_2 =>
    cases h
    exact .inl rfl

/-- Without a move of its own the agent's turn passes (R171). -/
theorem prfTurn_of_not_wait (h : s.PH ≠ .wait) : prfTurn s = .next s := by
  unfold prfTurn
  split
  case h_1 hp _ => exact absurd hp h
  case h_2 => rfl

/-- The agents' moves leave the modulus, the key, the script and the free values, and all but ASM leave `X`
(R25, R26, R46). -/
theorem AgentMove.frame (m : AgentMove s t) :
    t.A = s.A ∧ t.key = s.key ∧ t.script = s.script ∧ t.freeKeys = s.freeKeys ∧ (t.X = s.X ∨ s.PH = .asm) := by
  cases m with
  | split | issue | respond | mix => exact ⟨rfl, rfl, rfl, rfl, .inl rfl⟩
  | asm hp => exact ⟨rfl, rfl, rfl, rfl, .inr hp⟩

/-- Settles O25: the turn of either agent passes or is one of the moves. -/
theorem blockWritesXOnlyInAsm : Obligations.BlockWritesXOnlyInAsm := by
  intro s t hturn h
  have hcases : t = s.dropTurn ∨ AgentMove s.dropTurn t := by
    rcases hturn with hturn | hturn
    · exact sequencerTurn_cases ((step_sequencer hturn).symm.trans h)
    · exact prfTurn_cases ((step_prf hturn).symm.trans h)
  rcases hcases with rfl | m
  · exact ⟨rfl, rfl, rfl, rfl, .inl rfl⟩
  · exact m.frame

end Sys2Proof.Machine
end

section
/-! SUPPORT. The invariant: every turn has an effect on a state that meets it, and every effect keeps it. -/

namespace Sys2Proof.Machine

variable {s t : State}

/-- The invariant speaks of the block alone. -/
theorem State.Inv.of_sameBlock (hi : s.Inv) (h : SameBlock s t) : t.Inv := by
  obtain ⟨hA, hX, hL, hR, hW, hD, hI, hPH, hSTATUS, hrequest⟩ := h
  have hdir : t.dir = s.dir := congrArg Status.dir hSTATUS
  have hmessage : t.message = s.message := by
    simp only [State.message, State.sent, State.halves, hdir, hI, hL, hR]
  exact {
    status_legal := by rw [hSTATUS]; exact hi.status_legal
    busy_iff := by rw [State.busy, hSTATUS, hPH]; exact hi.busy_iff
    clear := by rw [hPH, hL, hR, hW, hD]; exact hi.clear
    idle_round := by rw [hPH, hI]; exact hi.idle_round
    operands := by rw [hPH, hA, hX]; exact hi.operands
    halves := by rw [hPH, hL, hR, hW, hA]; exact hi.halves
    outstanding := by rw [hPH, hrequest, hmessage]; exact hi.outstanding
    round_index := by rw [hI]; exact hi.round_index
    split_round := by rw [hPH, hI, hdir]; exact hi.split_round
    asm_round := by rw [hPH, hI, hdir]; exact hi.asm_round }

theorem State.Inv.dropTurn (hi : s.Inv) : s.dropTurn.Inv := hi.of_sameBlock (.dropTurn s)

/-- Between commands: IDLE, the internal registers zero and nothing outstanding (R45, R49). -/
def State.Clear (s : State) : Prop :=
  s.PH = .idle ∧ (s.L = 0 ∧ s.R = 0 ∧ s.W = 0 ∧ s.D = 0) ∧ s.I = 0 ∧ s.request = none

/-- Between commands the invariant asks no more than a legal `STATUS` that is not busy (R229). -/
theorem State.Clear.inv (h : s.Clear) (hlegal : s.STATUS ∈ legalStatus) (hb : s.busy = false) : s.Inv := by
  obtain ⟨hp, hclear, hI, hrequest⟩ := h
  exact {
    status_legal := hlegal
    busy_iff := by simp [hb, hp]
    clear := fun _ => hclear
    idle_round := fun _ => hI
    operands := fun h => absurd hp h
    halves := by simp [hp, Phase.halvesLoaded]
    outstanding := by simp [hp, hrequest]
    round_index := by simp [hI]
    split_round := by simp [hp]
    asm_round := by simp [hp] }

theorem State.Inv.busy_eq_true (hi : s.Inv) (hp : s.PH ≠ .idle) : s.busy = true := hi.busy_iff.mpr hp

theorem State.Inv.request_eq_none (hi : s.Inv) (hp : s.PH ≠ .wait) : s.request = none :=
  hi.outstanding.trans (if_neg hp)

theorem State.Inv.request_eq_message (hi : s.Inv) (hp : s.PH = .wait) : s.request = some s.message :=
  hi.outstanding.trans (if_pos hp)

/-- While not busy a state that meets the invariant is between commands (R38). -/
theorem State.Inv.clear_of_not_busy (hi : s.Inv) (hb : s.busy = false) : s.Clear := by
  have hp : s.PH = .idle := by
    by_contra hp
    exact absurd (hi.busy_eq_true hp) (by simp [hb])
  exact ⟨hp, hi.clear (by rw [hp]; rfl), hi.idle_round hp, hi.request_eq_none (by simp [hp])⟩

/-- The modulus of a running command is not zero (R25). -/
theorem State.Inv.modulus_pos (hi : s.Inv) (hp : s.PH ≠ .idle) : 0 < s.A.toNat := by
  have := (hi.operands hp).1
  omega

/-- Between commands a `STATUS` of zero is legal and not busy (R37, R229). -/
theorem State.Clear.inv_of_status_zero (h : s.Clear) (hs : s.STATUS = 0x00) : s.Inv :=
  h.inv (by rw [hs]; decide) (by rw [State.busy, hs]; decide)

/-- Settles O26: the state after reset is between commands, with `STATUS` zero. -/
theorem resetMeetsTheInvariant : Obligations.ResetMeetsTheInvariant :=
  State.Clear.inv_of_status_zero ⟨rfl, ⟨rfl, rfl, rfl, rfl⟩, rfl, rfl⟩ rfl

/-- A reset leaves the block between commands, whatever it was doing (R280). -/
theorem resetBlock_inv (s : State) : (resetBlock s).Inv :=
  State.Clear.inv_of_status_zero ⟨rfl, ⟨rfl, rfl, rfl, rfl⟩, rfl, rfl⟩ rfl

/-- A fault leaves the block not busy (R249). -/
theorem raiseFault_busy (c : Cause) (s : State) : (raiseFault c s).busy = false := (faulted_reads c s.STATUS).1

/-- The start of a command on legal operands keeps the invariant (R223). -/
theorem State.Inv.startCommand (hi : s.Inv) (hb : s.busy = false) (dir : Direction) (hA : 2 ≤ s.A.toNat)
    (hX : s.X.toNat < s.A.toNat * s.A.toNat) : (startCommand dir s).Inv := by
  obtain ⟨_, hclear, _, hrequest⟩ := hi.clear_of_not_busy hb
  obtain ⟨hbusy, _, _, hdir, _⟩ := accepted_setDir_reads dir s.STATUS
  exact {
    status_legal := by
      rw [startCommand_STATUS, accepted_setDir_legal dir hi.status_legal]
      cases dir <;> decide
    busy_iff := iff_of_true hbusy (by simp)
    clear := fun _ => hclear
    idle_round := by simp
    operands := fun _ => ⟨hA, hX⟩
    halves := by simp [Phase.halvesLoaded]
    outstanding := hrequest
    round_index := by
      rw [startCommand_I]
      cases dir <;> decide
    split_round := by
      intro _
      rw [State.dir, startCommand_STATUS, hdir]
      cases dir <;> rfl
    asm_round := by simp }

/-- Every effect of a host line keeps the invariant (R223 to R228, R249). -/
theorem State.Inv.hostEffect (hi : s.Inv) (e : HostEffect s t) : t.Inv := by
  cases e with
  | same h => exact hi.of_sameBlock h
  | storeA hb v h =>
    have hclear : State.Clear { s with A := v } := hi.clear_of_not_busy hb
    exact (hclear.inv hi.status_legal hb).of_sameBlock h
  | storeX hb v h =>
    have hclear : State.Clear { s with X := v } := hi.clear_of_not_busy hb
    exact (hclear.inv hi.status_legal hb).of_sameBlock h
  | fault hb c h =>
    have hclear : (raiseFault c s).Clear := hi.clear_of_not_busy hb
    exact (hclear.inv (faulted_legal c hi.status_legal) (raiseFault_busy c s)).of_sameBlock h
  | dirFault hb c dir h =>
    have hclear : (raiseFault c { s with STATUS := Status.setDir dir s.STATUS }).Clear := hi.clear_of_not_busy hb
    exact (hclear.inv (setDir_faulted_legal c dir hi.status_legal) (raiseFault_busy c _)).of_sameBlock h
  | start hb dir hA hX h => exact (hi.startCommand hb dir hA hX).of_sameBlock h

/-- SPLIT keeps the invariant: both halves of the operand are below the modulus (R33). -/
theorem State.Inv.split (hi : s.Inv) (hp : s.PH = .split) :
    (State.setHalves (splitHalves s.dir s.A.toNat s.X.toNat) { s with PH := .issue }).Inv := by
  have hidle : s.PH ≠ .idle := by simp [hp]
  have hbelow := splitHalves_below s.dir (hi.modulus_pos hidle) (hi.operands hidle).2
  obtain ⟨hl, hr⟩ := setHalves_toNat (s := { s with PH := .issue }) hbelow
  obtain ⟨_, _, hW, _⟩ := hi.clear (by rw [hp]; rfl)
  exact {
    status_legal := hi.status_legal
    busy_iff := iff_of_true (hi.busy_eq_true hidle) (by simp)
    clear := by simp [Phase.halvesLoaded]
    idle_round := by simp
    operands := fun _ => hi.operands hidle
    halves := by
      intro _
      rw [hl, hr]
      exact ⟨hbelow.1, hbelow.2, by simpa [hW] using hi.modulus_pos hidle⟩
    outstanding := hi.request_eq_none (by simp [hp])
    round_index := hi.round_index
    split_round := by simp
    asm_round := by simp }

/-- ISSUE keeps the invariant: the request it sends is that of the present round (R165). -/
theorem State.Inv.issue (hi : s.Inv) (hp : s.PH = .issue) :
    (State.record (.prfReq s.message) { s with request := some s.message, PH := .wait }).Inv := by
  have hidle : s.PH ≠ .idle := by simp [hp]
  exact {
    status_legal := hi.status_legal
    busy_iff := iff_of_true (hi.busy_eq_true hidle) (by simp)
    clear := by simp [Phase.halvesLoaded]
    idle_round := by simp
    operands := fun _ => hi.operands hidle
    halves := fun _ => hi.halves (by rw [hp]; rfl)
    outstanding := by rfl
    round_index := hi.round_index
    split_round := by simp
    asm_round := by simp }

/-- RESPOND keeps the invariant: it ends the request, and no bound is on the digest latch (R167). -/
theorem State.Inv.respond (hi : s.Inv) (hp : s.PH = .wait) (dg : Digest) (more : List Digest) :
    (receiveDigest dg { s with scripted := more }).Inv := by
  have hidle : s.PH ≠ .idle := by simp [hp]
  exact {
    status_legal := hi.status_legal
    busy_iff := iff_of_true (hi.busy_eq_true hidle) (by simp [receiveDigest])
    clear := by simp [Phase.halvesLoaded, receiveDigest]
    idle_round := by simp [receiveDigest]
    operands := fun _ => hi.operands hidle
    halves := fun _ => hi.halves (by rw [hp]; rfl)
    outstanding := by rfl
    round_index := hi.round_index
    split_round := by simp [receiveDigest]
    asm_round := by simp [receiveDigest] }

/-- The phase and the round index after MIX: ASM in the last round, else ISSUE with the next index (R34, R36). -/
theorem afterMix_cases (dir : Direction) {i : BitVec 2} (hi : i ≠ 3) :
    (i.toNat = lastRound dir ∧ afterMix dir i = (.asm, i)) ∨
    (i.toNat ≠ lastRound dir ∧ (afterMix dir i).1 = .issue ∧ (afterMix dir i).2.toNat = nextRound dir i.toNat ∧
      (afterMix dir i).2 ≠ 3) := by
  revert i
  cases dir <;> decide

/-- MIX keeps the invariant: the new halves and the round value are residues of the modulus (R29, R33). -/
theorem State.Inv.mix (hi : s.Inv) (hp : s.PH = .mix) :
    (State.setHalves (mixHalves s.dir s.A.toNat s.roundValue s.halves)
      { s with
        W := BitVec.ofNat 128 s.roundValue
        PH := (afterMix s.dir s.I).1
        I := (afterMix s.dir s.I).2 }).Inv := by
  have hidle : s.PH ≠ .idle := by simp [hp]
  have hpos := hi.modulus_pos hidle
  obtain ⟨hL, hR, _⟩ := hi.halves (by rw [hp]; rfl)
  have hbelow : (mixHalves s.dir s.A.toNat s.roundValue s.halves).Below s.A.toNat := mixHalves_below s.dir _ ⟨hL, hR⟩
  have hhalves : (BitVec.ofNat 128 (mixHalves s.dir s.A.toNat s.roundValue s.halves).1).toNat < s.A.toNat ∧
      (BitVec.ofNat 128 (mixHalves s.dir s.A.toNat s.roundValue s.halves).2).toNat < s.A.toNat ∧
      (BitVec.ofNat 128 s.roundValue).toNat < s.A.toNat := by
    rw [toNat_ofNat_of_lt_modulus hbelow.1, toNat_ofNat_of_lt_modulus hbelow.2, roundValue_toNat hpos]
    exact ⟨hbelow.1, hbelow.2, roundValue_lt hpos⟩
  have hphase : (afterMix s.dir s.I).1 = .asm ∨ (afterMix s.dir s.I).1 = .issue := by
    rcases afterMix_cases s.dir hi.round_index with ⟨_, h⟩ | ⟨_, h, _⟩ <;> simp [h]
  exact {
    status_legal := hi.status_legal
    busy_iff := iff_of_true (hi.busy_eq_true hidle) (by rcases hphase with h | h <;> simp [h])
    clear := by rcases hphase with h | h <;> simp [h, Phase.halvesLoaded]
    idle_round := by rcases hphase with h | h <;> simp [h]
    operands := fun _ => hi.operands hidle
    halves := fun _ => hhalves
    outstanding := by rcases hphase with h | h <;> simp [h, hi.request_eq_none, hp]
    round_index := by
      rcases afterMix_cases s.dir hi.round_index with ⟨_, h⟩ | ⟨_, _, _, h⟩
      · simpa [h] using hi.round_index
      · exact h
    split_round := by rcases hphase with h | h <;> simp [h]
    asm_round := by
      rcases afterMix_cases s.dir hi.round_index with ⟨hlast, h⟩ | ⟨_, h, _⟩
      · exact fun _ => (congrArg (fun p => p.2.toNat) h).trans hlast
      · simp [h] }

/-- ASM keeps the invariant: it clears the block and completes `STATUS` (R49, R185, R205). -/
theorem State.Inv.asm (hi : s.Inv) (hp : s.PH = .asm) (x : Nat) : (completeCommand x s).Inv := by
  have hlegal : Status.completed s.STATUS ∈ legalStatus := by
    rw [completed_legal hi.status_legal (hi.busy_eq_true (by simp [hp]))]
    split <;> simp [legalStatus]
  exact State.Clear.inv ⟨rfl, ⟨rfl, rfl, rfl, rfl⟩, rfl, hi.request_eq_none (by simp [hp])⟩ hlegal
    (completed_reads s.STATUS).1

/-- Every move of an agent keeps the invariant. -/
theorem State.Inv.agentMove (hi : s.Inv) (m : AgentMove s t) : t.Inv := by
  cases m with
  | split hp => exact hi.split hp
  | issue hp => exact hi.issue hp
  | respond hp => exact hi.respond hp _ _
  | mix hp => exact hi.mix hp
  | asm hp => exact hi.asm hp _

/-- In a state that meets the invariant a turn of the sequencer is the move of its phase, or it passes where the phase
enables no step of the sequencer (R35, R241). -/
theorem State.Inv.sequencerTurn (hi : s.Inv) :
    (some Turn.sequencer = s.PH.enabledTurn ∧ ∃ t, sequencerTurn s = .next t ∧ AgentMove s t) ∨
    (some Turn.sequencer ≠ s.PH.enabledTurn ∧ sequencerTurn s = .next s) := by
  cases hp : s.PH with
  | idle => exact .inr ⟨by decide, sequencerTurn_idle hp⟩
  | split =>
    obtain ⟨hA, hX⟩ := hi.operands (by simp [hp])
    exact .inl ⟨rfl, _, (sequencerTurn_split hp).trans (stepSplit_next hA hX), .split hp⟩
  | issue => exact .inl ⟨rfl, _, (sequencerTurn_issue hp).trans (stepIssue_next hi.round_index), .issue hp⟩
  | wait => exact .inr ⟨by decide, sequencerTurn_wait hp⟩
  | mix =>
    have hpos := hi.modulus_pos (by simp [hp])
    exact .inl ⟨rfl, _, (sequencerTurn_mix hp).trans (stepMix_next hpos hi.round_index), .mix hp⟩
  | asm =>
    obtain ⟨hL, hR, _⟩ := hi.halves (by rw [hp]; rfl)
    exact .inl ⟨rfl, _, (sequencerTurn_asm hp).trans (stepAsm_next hL hR), .asm hp⟩

/-- WAIT alone enables the PRF agent (R35). -/
theorem eq_wait_of_enabledTurn {p : Phase} (h : some Turn.prf = p.enabledTurn) : p = .wait := by
  revert h
  cases p <;> decide

/-- In a state that meets the invariant a turn of the PRF agent is RESPOND in WAIT and passes elsewhere (R167, R171). -/
theorem State.Inv.prfTurn (hi : s.Inv) :
    (some Turn.prf = s.PH.enabledTurn ∧ ∃ t, prfTurn s = .next t ∧ AgentMove s t) ∨
    (some Turn.prf ≠ s.PH.enabledTurn ∧ prfTurn s = .next s) := by
  by_cases hp : s.PH = .wait
  · have hm := hi.request_eq_message hp
    refine .inl ⟨by rw [hp]; rfl, _, ?_, .respond hp s.message hm⟩
    unfold Machine.prfTurn
    rw [hp, hm]
  · exact .inr ⟨fun hen => hp (eq_wait_of_enabledTurn hen), prfTurn_of_not_wait hp⟩

/-- What one step makes of a state that meets the invariant. -/
inductive StepEffect (s : State) : State → Prop where
  /-- A reset event (R280). -/
  | reset (hturn : s.nextTurn = .reset) : StepEffect s (resetBlock s.dropTurn)
  /-- A host line, or a host with nothing to do. -/
  | host (hturn : s.nextTurn = .host) {t : State} (e : HostEffect s t) : StepEffect s t
  /-- A turn of an agent that the phase does not enable (log 5). -/
  | pass (hturn : some s.nextTurn ≠ s.PH.enabledTurn) : StepEffect s s.dropTurn
  /-- The move that the phase enables (R35). -/
  | move (hturn : some s.nextTurn = s.PH.enabledTurn) {t : State} (m : AgentMove s.dropTurn t) : StepEffect s t

/-- Under the invariant every step has one of the effects; none stops (R241). -/
theorem State.Inv.step_effect (hi : s.Inv) : ∃ t, step s = .next t ∧ StepEffect s t := by
  cases hturn : s.nextTurn with
  | host =>
    obtain ⟨t, ht, e⟩ := hostTurn_effect s.dropTurn
    exact ⟨t, (step_hostTurn hturn).trans ht, .host hturn (.of_sameBlock (.dropTurn s) e)⟩
  | sequencer =>
    rcases hi.dropTurn.sequencerTurn with ⟨hen, t, ht, m⟩ | ⟨hen, ht⟩
    · exact ⟨t, (step_sequencer hturn).trans ht, .move (hturn ▸ hen) m⟩
    · exact ⟨_, (step_sequencer hturn).trans ht, .pass (hturn ▸ hen)⟩
  | prf =>
    rcases hi.dropTurn.prfTurn with ⟨hen, t, ht, m⟩ | ⟨hen, ht⟩
    · exact ⟨t, (step_prf hturn).trans ht, .move (hturn ▸ hen) m⟩
    · exact ⟨_, (step_prf hturn).trans ht, .pass (hturn ▸ hen)⟩
  | reset => exact ⟨_, step_reset hturn, .reset hturn⟩

/-- The same for a next state that is given. -/
theorem State.Inv.effect_of_step (hi : s.Inv) (h : step s = .next t) : StepEffect s t := by
  obtain ⟨u, hu, e⟩ := hi.step_effect
  rwa [Host.Outcome.next.inj (h.symm.trans hu)]

/-- Every effect keeps the invariant. -/
theorem State.Inv.stepEffect (hi : s.Inv) (e : StepEffect s t) : t.Inv := by
  cases e with
  | reset => exact resetBlock_inv _
  | host _ e => exact hi.hostEffect e
  | pass => exact hi.dropTurn
  | move _ m => exact hi.dropTurn.agentMove m

/-- Settles O27: each step has one of the effects, and each of these keeps the invariant. -/
theorem everyStepKeepsTheInvariant : Obligations.EveryStepKeepsTheInvariant :=
  fun _ _ hi h => hi.stepEffect (hi.effect_of_step h)

/-- Settles O28: each step has one of the effects, so it has a next state. -/
theorem noStepStopsUnderTheInvariant : Obligations.NoStepStopsUnderTheInvariant := by
  intro s hi
  obtain ⟨t, ht, _⟩ := hi.step_effect
  exact ⟨t, ht⟩

end Sys2Proof.Machine
end

section
/-! SUPPORT. What the invariant says of a whole run and of single phases: the legal values of `STATUS` (R229), the
outstanding request (R63, R98), the bound of the result (R143). -/

namespace Sys2Proof.Machine

variable {s t : State}

/-- From a state that meets the invariant every run reaches such a state (R241). -/
theorem State.Inv.run (hi : s.Inv) (k : Nat) : ∃ t, run k s = .next t ∧ t.Inv := by
  induction k generalizing s with
  | zero => exact ⟨s, run_zero s, hi⟩
  | succ k ih =>
    obtain ⟨t, ht, e⟩ := hi.step_effect
    rw [run_succ k ht]
    exact ih (hi.stepEffect e)

/-- What a host reads from a legal `STATUS` is its value (R42, R229). -/
theorem readReg_status_of_legal (h : s.STATUS ∈ legalStatus) : readReg .status s = s.STATUS.toNat := by
  rw [readReg, readable_of_legal h]

/-- Settles O29: the state after reset meets the invariant with any script and turns, and so does every state a run
reaches. -/
theorem everyRunReadsALegalStatus : Obligations.EveryRunReadsALegalStatus := by
  intro k script turns
  have hreset : State.Inv { State.reset with script := script, turns := turns } :=
    State.Inv.of_sameBlock resetMeetsTheInvariant ⟨rfl, rfl, rfl, rfl, rfl, rfl, rfl, rfl, rfl, rfl⟩
  obtain ⟨t, ht, hi⟩ := hreset.run k
  refine ⟨t, ht, ?_, hi.busy_iff⟩
  rw [readReg_status_of_legal hi.status_legal]
  exact List.mem_map_of_mem hi.status_legal

/-- The message carries the half that the mux selects (R163, R165). -/
theorem message_eq (s : State) :
    s.message = enc32 s.I.toNat ++ encVar (if s.dir = .forward then s.R.toNat else s.L.toNat) := by
  cases hd : s.dir
  · exact message_forward hd
  · exact message_reverse hd

/-- A half of the block is at most 16 octets long (R8, R33). -/
theorem octetLen_le_of_lt_modulus {u : Nat} (h : u < s.A.toNat) : octetLen u ≤ 16 :=
  octetLen_le_of_lt ((h.trans s.A.isLt).trans_eq (by norm_num))

/-- The sent half is one of the two halves, so it is below the modulus while they are loaded (R33). -/
theorem State.Inv.sent_lt (hi : s.Inv) (h : s.PH.halvesLoaded = true) : s.sent < s.A.toNat := by
  obtain ⟨hL, hR, _⟩ := hi.halves h
  unfold State.sent
  cases s.dir
  · exact hR
  · exact hL

/-- A round index that is not 3 is one of the three (R34). -/
theorem toNat_lt_rounds {i : BitVec 2} (h : i ≠ 3) : i.toNat < Config.rounds := by
  revert i; decide

/-- Settles O32: the request is the present message, 8 octets and those of a half that is below the modulus. -/
theorem outstandingRequestIsWellFormed : Obligations.OutstandingRequestIsWellFormed := by
  intro s hi hp
  have hlen : s.message.length = 8 + octetLen s.sent := message_length _ _
  have hhalf : octetLen s.sent ≤ 16 := octetLen_le_of_lt_modulus (hi.sent_lt (by rw [hp]; rfl))
  have hround : s.I.toNat < 3 := toNat_lt_rounds hi.round_index
  exact ⟨s.message, hi.request_eq_message hp, by omega, by omega, by omega, message_eq s⟩

/-- Settles O33: the halves are below the modulus, so the assembly is below its square and fits `X`. -/
theorem resultIsBelowTheSquare : Obligations.ResultIsBelowTheSquare := by
  intro s hi hp hturn
  obtain ⟨hL, hR, _⟩ := hi.halves (by rw [hp]; rfl)
  obtain ⟨hbusy, hdone, _⟩ := completed_reads s.STATUS
  refine ⟨_, step_asm hturn hp hL hR, ?_, hdone, hbusy⟩
  exact (assemble_toNat hL hR).trans_lt (assemble_lt s.dir ⟨hL, hR⟩)

end Sys2Proof.Machine
end

section
/-! SUPPORT. The order of the phases (R36) and the distance to completion (R296): a move of the enabled agent takes the
next phase and is one of the eleven steps of a command; no other turn but reset moves a running command. -/

namespace Sys2Proof.Machine

variable {s t : State}

/-- The last round is followed by none (R34). -/
theorem roundsFrom_of_last {dir : Direction} {i : Nat} (h : i = lastRound dir) : roundsFrom dir i = [i] := by
  subst h; cases dir <;> decide

/-- Any other round is followed by those from the next index on (R34). -/
theorem roundsFrom_of_not_last {dir : Direction} {i : Nat} (hi : i < Config.rounds) (h : i ≠ lastRound dir) :
    roundsFrom dir i = i :: roundsFrom dir (nextRound dir i) := by
  rw [roundsFrom_cons hi, if_neg h]

/-- The present round is the first of those to come (R34). -/
theorem roundsFrom_eq_cons_tail {dir : Direction} {i : Nat} (hi : i < Config.rounds) :
    roundsFrom dir i = i :: (roundsFrom dir i).tail := by rw [roundsFrom_cons hi]; rfl

/-- A move takes the phase to the next one of the fixed order (R36). -/
theorem AgentMove.phaseStep (m : AgentMove s t) (hI : s.I ≠ 3) : phaseStep s t := by
  cases m with
  | split hp | issue hp | respond hp | asm hp => simp [Machine.phaseStep, hp, receiveDigest]
  | mix hp =>
    simp only [Machine.phaseStep, hp]
    rcases afterMix_cases s.dir hI with ⟨hlast, h⟩ | ⟨hlast, hph, hnext, _⟩
    · rw [if_pos hlast, setHalves_PH, h]
    · rw [if_neg hlast]
      exact ⟨hph, hnext⟩

/-- A host line keeps the phase, or it starts a command in IDLE (R36, R222). -/
theorem State.Inv.phase_of_hostEffect (hi : s.Inv) (e : HostEffect s t) :
    t.PH = s.PH ∨ s.PH = .idle ∧ t.PH = .split := by
  cases e with
  | same h | storeA _ _ h | storeX _ _ h | fault _ _ h | dirFault _ _ _ h => exact .inl h.PH
  | start hb _ _ _ h => exact .inr ⟨(hi.clear_of_not_busy hb).1, h.PH⟩

/-- Settles O30: a move follows the order, a host line starts a command at most, every other turn keeps the phase. -/
theorem phasesFollowTheFixedOrder : Obligations.PhasesFollowTheFixedOrder := by
  intro s t hi hreset h
  cases hi.effect_of_step h with
  | reset hturn => exact absurd hturn hreset
  | host _ e =>
    rcases hi.phase_of_hostEffect e with hsame | ⟨hidle, hsplit⟩
    · exact .inl hsame
    · exact .inr (by rw [phaseStep, hidle]; exact hsplit)
  | pass => exact .inl rfl
  | move _ m => exact .inr (m.phaseStep hi.round_index)

/-- The distance to completion is read from the block alone. -/
theorem SameBlock.stepsLeft (h : SameBlock s t) : t.stepsLeft = s.stepsLeft := by
  simp only [State.stepsLeft, State.dir, h.PH, h.I, h.STATUS]

/-- At least the present round is to come (R34). -/
theorem State.Inv.roundsFrom_length_pos (hi : s.Inv) : 0 < (roundsFrom s.dir s.I.toNat).length := by
  rw [roundsFrom_cons (toNat_lt_rounds hi.round_index)]
  exact Nat.succ_pos _

/-- Nothing is left to do exactly between commands (R296). -/
theorem State.Inv.stepsLeft_eq_zero_iff (hi : s.Inv) : s.stepsLeft = 0 ↔ s.PH = .idle := by
  have hpos := hi.roundsFrom_length_pos
  cases hp : s.PH <;> simp only [State.stepsLeft, hp, reduceCtorEq, iff_false, Config.rounds] <;> omega

/-- Every move is one step of the way to completion (R296). -/
theorem State.Inv.stepsLeft_of_agentMove (hi : s.Inv) (m : AgentMove s t) : t.stepsLeft + 1 = s.stepsLeft := by
  have hpos := hi.roundsFrom_length_pos
  cases m with
  | split hp =>
    have hrounds : (roundsFrom s.dir s.I.toNat).length = 3 := by
      rw [hi.split_round hp]
      cases s.dir <;> rfl
    simp only [State.stepsLeft, hp]
    exact congrArg (fun n => 3 * n + 1 + 1) hrounds
  | issue hp => simp only [State.stepsLeft, hp]; rfl
  | respond hp =>
    simp only [State.stepsLeft, hp]
    exact Nat.sub_add_cancel (by omega : 1 ≤ 3 * (roundsFrom s.dir s.I.toNat).length)
  | mix hp =>
    rcases afterMix_cases s.dir hi.round_index with ⟨hlast, h⟩ | ⟨hlast, hph, hnext, _⟩
    · simp only [State.stepsLeft, hp, setHalves_PH, h, roundsFrom_of_last hlast, List.length_singleton]
    · simp only [State.stepsLeft, hp, setHalves_PH, hph, setHalves_I, hnext]
      rw [roundsFrom_of_not_last (toNat_lt_rounds hi.round_index) hlast, List.length_cons]
      exact Nat.add_assoc _ 1 1
  | asm hp => simp only [State.stepsLeft, hp]; rfl

/-- No phase enables the host (R35). -/
theorem host_ne_enabledTurn (p : Phase) : some Turn.host ≠ p.enabledTurn := by cases p <;> decide

/-- Settles O31: a move is one step fewer; while the block is busy every other turn but reset leaves it alone. -/
theorem commandProgressesStepByStep : Obligations.CommandProgressesStepByStep := by
  refine ⟨fun _ _ => rfl, fun s hi => hi.stepsLeft_eq_zero_iff, fun s hi hp hreset => ?_⟩
  obtain ⟨t, ht, e⟩ := hi.step_effect
  refine ⟨t, ht, ?_⟩
  cases e with
  | reset hturn => exact absurd hturn hreset
  | host hturn e =>
    have same := e.sameBlock_of_busy (hi.busy_eq_true hp)
    exact ⟨fun h => absurd (hturn ▸ h) (host_ne_enabledTurn s.PH), fun _ => ⟨same.stepsLeft, same.PH⟩⟩
  | pass hturn => exact ⟨fun h => absurd h hturn, fun _ => ⟨rfl, rfl⟩⟩
  | move hturn m => exact ⟨fun _ => hi.dropTurn.stepsLeft_of_agentMove m, fun h => absurd hturn h⟩

end Sys2Proof.Machine
end

section
/-! SUPPORT. A host line beyond its effect on the block: what it keeps of the turns, the script and the agent, when it
moves the phase, and what the host can tell from it (R32, R45, R222). -/

namespace Sys2Proof.Machine

variable {s t : State} {op : HostOp}

/-- A command write is that of `ENC` or `DEC`, or it leaves the state, or it records a fault (R220 to R224, R228). -/
theorem writeCmd_cases (c : BitVec 8) (s : State) :
    (∃ dir, c = encode (commandOf dir) ∧ writeCmd c s = .next (acceptCommand dir s)) ∨ writeCmd c s = .next s ∨
    writeCmd c s = .next (raiseFault .illegalCmd s) := by
  rcases decodeCommand_cases c with ⟨hc, h⟩ | ⟨hc, h⟩ | ⟨d, _, h⟩ | ⟨hc, _⟩
  · exact .inl ⟨.forward, hc, by rw [writeCmd, h]; rfl⟩
  · exact .inl ⟨.reverse, hc, by rw [writeCmd, h]; rfl⟩
  · exact .inr (.inl (by rw [writeCmd, h]; exact exec_nop d s))
  · rw [writeCmd_illegal hc]
    cases hb : s.busy
    · exact .inr (.inr (by rw [illegalCommand_of_not_busy hb]))
    · exact .inr (.inl (by rw [illegalCommand_of_busy hb]))

/-- What a line that does not touch the agent keeps of the state outside the block: the agent, the turns, the free
values and the script, to which `WAIT` alone can come back (R109). -/
structure LineFrame (s t : State) : Prop where
  key : t.key = s.key
  scripted : t.scripted = s.scripted
  turns : t.turns = s.turns
  freeKeys : t.freeKeys = s.freeKeys
  script : ∀ op ∈ t.script, op = .wait ∨ op ∈ s.script

theorem LineFrame.refl (s : State) : LineFrame s s := ⟨rfl, rfl, rfl, rfl, fun _ => .inr⟩

theorem acceptCommand_frame (dir : Direction) (s : State) : LineFrame s (acceptCommand dir s) := by
  rcases acceptCommand_cases dir s with ⟨_, h⟩ | ⟨_, _, h⟩ | ⟨_, _, _, h⟩ | ⟨_, _, _, h⟩
  all_goals rw [h]; exact ⟨rfl, rfl, rfl, rfl, fun _ => .inr⟩

theorem writeCmd_frame {c : BitVec 8} (h : writeCmd c s = .next t) : LineFrame s t := by
  rcases writeCmd_cases c s with ⟨dir, _, h'⟩ | h' | h' <;> cases h'.symm.trans h
  · exact acceptCommand_frame dir s
  · exact .refl s
  · exact ⟨rfl, rfl, rfl, rfl, fun _ => .inr⟩

theorem writeA_frame (v : BitVec 128) (s : State) : LineFrame s (writeA v s) := by
  unfold writeA
  split <;> exact ⟨rfl, rfl, rfl, rfl, fun _ => .inr⟩

theorem writeX_frame (v : BitVec 256) (s : State) : LineFrame s (writeX v s) := by
  unfold writeX
  split <;> exact ⟨rfl, rfl, rfl, rfl, fun _ => .inr⟩

/-- One poll of `WAIT`: the read of `STATUS`, and the line comes back while the block is busy (R109). -/
theorem hostWait_eq (s : State) :
    hostWait s = { s with
      script := if s.busy then .wait :: s.script else s.script
      history := s.history ++ [.readReturned .status (readReg .status s)] } := by
  unfold hostWait
  cases s.busy <;> rfl

theorem hostWait_frame (s : State) : LineFrame s (hostWait s) := by
  rw [hostWait_eq]
  refine ⟨rfl, rfl, rfl, rfl, fun op h => ?_⟩
  cases hb : s.busy
  · exact .inr (by simpa [hb] using h)
  · simpa [hb] using h

/-- `KEY` and `PRF` change the agent alone (R109); every other line keeps what `LineFrame` names. -/
theorem runLine_frame (h : runLine op s = .next t) :
    LineFrame s t ∨ (∃ k, op = .key k ∧ t = installKey k s) ∨ ∃ dg, op = .prf dg ∧ t = scriptAnswer dg s := by
  cases op with
  | wrCmd c => exact .inl (writeCmd_frame h)
  | wrStatus v => cases h; exact .inl (.refl s)
  | wrA v => cases h; exact .inl (writeA_frame v s)
  | wrX v => cases h; exact .inl (writeX_frame v s)
  | rd r => cases h; exact .inl ⟨rfl, rfl, rfl, rfl, fun _ => .inr⟩
  | wait => cases h; exact .inl (hostWait_frame s)
  | key k => cases h; exact .inr (.inl ⟨k, rfl, rfl⟩)
  | prf dg => cases h; exact .inr (.inr ⟨dg, rfl, rfl⟩)

/-- No line takes a turn of its own or uses a free value (R24). -/
theorem runLine_turns (h : runLine op s = .next t) : t.turns = s.turns ∧ t.freeKeys = s.freeKeys := by
  rcases runLine_frame h with hf | ⟨k, _, rfl⟩ | ⟨dg, _, rfl⟩
  · exact ⟨hf.turns, hf.freeKeys⟩
  · exact ⟨rfl, rfl⟩
  · exact ⟨rfl, rfl⟩

/-- No line reaches the halves, the round value, the latch or the request (R31, R45). -/
theorem HostEffect.internals (e : HostEffect s t) :
    t.L = s.L ∧ t.R = s.R ∧ t.W = s.W ∧ t.D = s.D ∧ t.request = s.request := by
  cases e with
  | same h | storeA _ _ h | storeX _ _ h | fault _ _ h | dirFault _ _ _ h | start _ _ _ _ h =>
    exact ⟨h.L, h.R, h.W, h.D, h.request⟩

/-- A command write moves the phase only where it is accepted (R223). -/
theorem acceptCommand_phase (dir : Direction) (s : State) :
    ((acceptCommand dir s).PH = s.PH ∧ (acceptCommand dir s).I = s.I) ∨
    (s.busy = false ∧ (acceptCommand dir s).PH = .split ∧ (acceptCommand dir s).I.toNat = firstRound dir) := by
  rcases acceptCommand_cases dir s with ⟨_, h⟩ | ⟨_, _, h⟩ | ⟨_, _, _, h⟩ | ⟨hb, _, _, h⟩ <;> rw [h]
  · exact .inl ⟨rfl, rfl⟩
  · exact .inl ⟨rfl, rfl⟩
  · exact .inl ⟨rfl, rfl⟩
  · exact .inr ⟨hb, rfl, by cases dir <;> rfl⟩

/-- Of all lines only an accepted `ENC` or `DEC` moves the phase (R222, R223). -/
theorem runLine_phase (h : runLine op s = .next t) :
    (t.PH = s.PH ∧ t.I = s.I) ∨
    ∃ dir, op = (commandOf dir).line ∧ s.busy = false ∧ t.PH = .split ∧ t.I.toNat = firstRound dir := by
  cases op with
  | wrCmd c =>
    rcases writeCmd_cases c s with ⟨dir, rfl, h'⟩ | h' | h' <;> cases h'.symm.trans h
    · exact (acceptCommand_phase dir s).imp_right fun hstart => ⟨dir, rfl, hstart⟩
    · exact .inl ⟨rfl, rfl⟩
    · exact .inl ⟨rfl, rfl⟩
  | wrA v =>
    cases h
    cases hb : s.busy
    · rw [writeA_of_not_busy v hb]; exact .inl ⟨rfl, rfl⟩
    · rw [writeA_of_busy v hb]; exact .inl ⟨rfl, rfl⟩
  | wrX v =>
    cases h
    cases hb : s.busy
    · rw [writeX_of_not_busy v hb]; exact .inl ⟨rfl, rfl⟩
    · rw [writeX_of_busy v hb]; exact .inl ⟨rfl, rfl⟩
  | wait => cases h; rw [hostWait_eq]; exact .inl ⟨rfl, rfl⟩
  | wrStatus | rd | key | prf => cases h; exact .inl ⟨rfl, rfl⟩

/-- Settles O16: the line runs with an effect on the block that leaves the internals; for the phase see
`runLine_phase`. -/
theorem hostLinesLeaveTheInternals : Obligations.HostLinesLeaveTheInternals := by
  intro s op rest h
  obtain ⟨t, ht, e⟩ := runLine_effect op (s.afterLine rest)
  obtain ⟨hL, hR, hW, hD, hrequest⟩ := e.internals
  obtain ⟨hturns, hfree⟩ := runLine_turns ht
  have hphase := runLine_phase ht
  exact ⟨t, (step_host h).trans ht, hL, hR, hW, hD, hrequest, hturns, hfree, hphase⟩

/-- Settles O51: either line runs in every state as one update of the agent. -/
theorem keyAndPrfLinesChangeTheAgentAlone : Obligations.KeyAndPrfLinesChangeTheAgentAlone :=
  fun _ _ => ⟨fun _ h => step_host h, fun _ h => step_host h⟩

/-- A `WAIT` line is one poll (R109). -/
theorem step_wait {rest : List HostOp} (h : s.hostNext .wait rest) : step s = .next (hostWait (s.afterLine rest)) :=
  step_host h

/-- Settles O15: the poll's value is the six defined bits of `STATUS`. -/
theorem waitPollsUntilNotBusy : Obligations.WaitPollsUntilNotBusy := by
  intro s rest h
  have hread : readReg .status (s.afterLine rest) = s.STATUS.toNat % 64 := readable_toNat s.STATUS
  rw [step_wait h, hostWait_eq, hread]
  rfl

/-- What a host can tell of a state: the registers it reads, and its own script (R32, R45). -/
structure SameView (s t : State) : Prop where
  A : s.A = t.A
  X : s.X = t.X
  STATUS : s.STATUS = t.STATUS
  script : s.script = t.script

/-- Two next states that look alike to the host, after the same events (R80). -/
def SameReply (s t s' t' : State) : Prop :=
  SameView s' t' ∧ ∃ evs, s'.history = s.history ++ evs ∧ t'.history = t.history ++ evs

/-- The reply of two states that record nothing. -/
theorem SameReply.silent {s' t' : State} (hv : SameView s' t') (hs : s'.history = s.history)
    (ht : t'.history = t.history) : SameReply s t s' t' :=
  ⟨hv, [], by simpa using hs, by simpa using ht⟩

theorem SameView.busy (h : SameView s t) : s.busy = t.busy := congrArg Status.busy h.STATUS

/-- What the host reads it can tell (R62). -/
theorem SameView.readReg (h : SameView s t) (r : HostReg) : readReg r s = readReg r t := by
  cases r with
  | cmd => rfl
  | status => exact congrArg (fun v => (Status.readable v).toNat) h.STATUS
  | a => exact congrArg BitVec.toNat h.A
  | x => exact congrArg BitVec.toNat h.X

/-- The outcome of a command write depends on what the host can tell: `BUSY`, `A` and `X` (R223). -/
theorem acceptCommand_reply (dir : Direction) (h : SameView s t) :
    SameReply s t (acceptCommand dir s) (acceptCommand dir t) := by
  rcases acceptCommand_cases dir s with ⟨hb, hs⟩ | ⟨hb, hA, hs⟩ | ⟨hb, hA, hX, hs⟩ | ⟨hb, hA, hX, hs⟩ <;>
    rw [hs] <;> rw [h.busy] at hb
  · rw [acceptCommand_of_busy dir hb]
    exact .silent h rfl rfl
  · rw [acceptCommand_badModulus hb (h.A ▸ hA)]
    exact .silent ⟨h.A, h.X, by simp [h.STATUS], h.script⟩ rfl rfl
  · rw [acceptCommand_operandRange hb (h.A ▸ hA) (h.A ▸ h.X ▸ hX)]
    exact .silent ⟨h.A, h.X, by simp [h.STATUS], h.script⟩ rfl rfl
  · rw [acceptCommand_start hb (h.A ▸ hA) (h.A ▸ h.X ▸ hX)]
    exact ⟨⟨h.A, h.X, by simp [h.STATUS], h.script⟩, [.accepted dir], rfl, rfl⟩

theorem illegalCommand_reply (h : SameView s t) : SameReply s t (illegalCommand s) (illegalCommand t) := by
  cases hb : s.busy
  · rw [illegalCommand_of_not_busy hb, illegalCommand_of_not_busy (h.busy ▸ hb)]
    exact .silent ⟨h.A, h.X, by simp [h.STATUS], h.script⟩ rfl rfl
  · rw [illegalCommand_of_busy hb, illegalCommand_of_busy (h.busy ▸ hb)]
    exact .silent h rfl rfl

theorem writeA_reply (v : BitVec 128) (h : SameView s t) : SameReply s t (writeA v s) (writeA v t) := by
  cases hb : s.busy
  · rw [writeA_of_not_busy v hb, writeA_of_not_busy v (h.busy ▸ hb)]
    exact .silent ⟨rfl, h.X, h.STATUS, h.script⟩ rfl rfl
  · rw [writeA_of_busy v hb, writeA_of_busy v (h.busy ▸ hb)]
    exact .silent h rfl rfl

theorem writeX_reply (v : BitVec 256) (h : SameView s t) : SameReply s t (writeX v s) (writeX v t) := by
  cases hb : s.busy
  · rw [writeX_of_not_busy v hb, writeX_of_not_busy v (h.busy ▸ hb)]
    exact .silent ⟨h.A, rfl, h.STATUS, h.script⟩ rfl rfl
  · rw [writeX_of_busy v hb, writeX_of_busy v (h.busy ▸ hb)]
    exact .silent h rfl rfl

theorem hostWait_reply (h : SameView s t) : SameReply s t (hostWait s) (hostWait t) := by
  rw [hostWait_eq, hostWait_eq, h.busy, h.script, h.readReg]
  exact ⟨⟨h.A, h.X, h.STATUS, rfl⟩, _, rfl, rfl⟩

/-- Every line gets the same reply of two states that look alike (R32, R45). -/
theorem runLine_reply (op : HostOp) (h : SameView s t) :
    ∃ s' t', runLine op s = .next s' ∧ runLine op t = .next t' ∧ SameReply s t s' t' := by
  cases op with
  | wrCmd c =>
    simp only [runLine, writeCmd]
    cases decodeCommand c with
    | error e => exact ⟨_, _, rfl, rfl, illegalCommand_reply h⟩
    | ok i =>
      cases i with
      | enc => exact ⟨_, _, rfl, rfl, acceptCommand_reply .forward h⟩
      | dec => exact ⟨_, _, rfl, rfl, acceptCommand_reply .reverse h⟩
      | nop d => exact ⟨_, _, rfl, rfl, .silent h rfl rfl⟩
  | wrStatus v => exact ⟨_, _, rfl, rfl, .silent h rfl rfl⟩
  | wrA v => exact ⟨_, _, rfl, rfl, writeA_reply v h⟩
  | wrX v => exact ⟨_, _, rfl, rfl, writeX_reply v h⟩
  | rd r => exact ⟨_, _, rfl, rfl, ⟨h.A, h.X, h.STATUS, h.script⟩, [.readReturned r (readReg r s)], rfl, by
      rw [h.readReg]; rfl⟩
  | wait => exact ⟨_, _, rfl, rfl, hostWait_reply h⟩
  | key k => exact ⟨_, _, rfl, rfl, .silent ⟨h.A, h.X, h.STATUS, h.script⟩ rfl rfl⟩
  | prf dg => exact ⟨_, _, rfl, rfl, .silent ⟨h.A, h.X, h.STATUS, h.script⟩ rfl rfl⟩

/-- Settles O17: with the line taken the two states look alike, so the line gets the same reply of both. -/
theorem internalsAreInvisibleToTheHost : Obligations.InternalsAreInvisibleToTheHost := by
  intro s t op rest hs ht hA hX hSTATUS
  have hview : SameView (s.afterLine rest) (t.afterLine rest) := ⟨hA, hX, hSTATUS, rfl⟩
  obtain ⟨s', t', hs', ht', hv, evs, hevs, hevt⟩ := runLine_reply op hview
  exact ⟨s', t', evs, (step_host hs).trans hs', (step_host ht).trans ht', hv.A, hv.X, hv.STATUS, hv.script, hevs, hevt⟩

end Sys2Proof.Machine
end

section
/-! SUPPORT. The promised result of a running command: every move keeps it, a host line leaves the running block alone,
and the start of a command promises the network's value (R180, R200, R228, R288). -/

namespace Sys2Proof.Machine

variable {s t : State}

/-- The promise is read from the block and the key of the agent. -/
theorem SameBlock.promised (h : SameBlock s t) (hkey : t.key = s.key) : t.promised = s.promised := by
  simp only [State.promised, State.dir, State.prf, State.halves, State.roundValue, hkey, h.A, h.X, h.L, h.R, h.D, h.I,
    h.PH, h.STATUS]

/-- The halves written are the halves read, while they are below the modulus (R33). -/
theorem setHalves_halves {h : Halves} (hb : h.Below s.A.toNat) : (State.setHalves h s).halves = h :=
  Prod.ext (setHalves_toNat hb).1 (setHalves_toNat hb).2

/-- A promise of rounds still to come runs the present one first (R180, R200). -/
theorem finish_roundsFrom (prf : Octets → Digest) {dir : Direction} {a i : Nat} (hi : i < Config.rounds) (h : Halves) :
    finish dir prf a (roundsFrom dir i) h =
      finish dir prf a (roundsFrom dir i).tail (networkRound dir prf a h i) := by
  rw [finish, roundsFrom_eq_cons_tail hi]
  rfl

/-- The agent's own digest gives the round value of the network's round function (R160, R168). -/
theorem receiveDigest_roundValue (dg : Digest) (s : State) :
    (receiveDigest dg s).roundValue = os2ip dg.toList % s.A.toNat :=
  congrArg (· % s.A.toNat) (digest_toNat dg)

/-- The promise of each phase. -/
theorem promised_of_split (hp : s.PH = .split) : s.promised = network s.dir s.prf s.A.toNat s.X.toNat := by
  simp only [State.promised, hp]

theorem promised_of_issue (hp : s.PH = .issue) :
    s.promised = finish s.dir s.prf s.A.toNat (roundsFrom s.dir s.I.toNat) s.halves := by
  simp only [State.promised, hp]

theorem promised_of_wait (hp : s.PH = .wait) :
    s.promised = finish s.dir s.prf s.A.toNat (roundsFrom s.dir s.I.toNat) s.halves := by
  simp only [State.promised, hp]

theorem promised_of_mix (hp : s.PH = .mix) :
    s.promised = finish s.dir s.prf s.A.toNat (roundsFrom s.dir s.I.toNat).tail
      (mixHalves s.dir s.A.toNat s.roundValue s.halves) := by
  simp only [State.promised, hp]

theorem promised_of_asm (hp : s.PH = .asm) : s.promised = assemble s.dir s.A.toNat s.halves := by
  simp only [State.promised, hp]

theorem promised_of_idle (hp : s.PH = .idle) : s.promised = s.X.toNat := by
  simp only [State.promised, hp]

/-- SPLIT's halves are those the network starts from, at the first round (R183, R203). -/
theorem State.Inv.promised_of_split_move (hi : s.Inv) (hp : s.PH = .split) :
    (State.setHalves (splitHalves s.dir s.A.toNat s.X.toNat) { s with PH := .issue }).promised = s.promised := by
  have hidle : s.PH ≠ .idle := by simp [hp]
  have hbelow := splitHalves_below s.dir (hi.modulus_pos hidle) (hi.operands hidle).2
  refine (promised_of_issue (s := State.setHalves _ { s with PH := .issue }) rfl).trans ?_
  rw [setHalves_halves (s := { s with PH := .issue }) hbelow, promised_of_split hp, network, ← hi.split_round hp]
  rfl

/-- RESPOND's digest gives the round value of the present round (R167, R168). -/
theorem State.Inv.promised_of_respond_move (hi : s.Inv) (hp : s.PH = .wait) :
    (receiveDigest (s.prf s.message) s).promised = s.promised := by
  calc _ = finish s.dir s.prf s.A.toNat (roundsFrom s.dir s.I.toNat).tail
          (mixHalves s.dir s.A.toNat (receiveDigest (s.prf s.message) s).roundValue s.halves) := promised_of_mix rfl
    _ = finish s.dir s.prf s.A.toNat (roundsFrom s.dir s.I.toNat).tail
          (networkRound s.dir s.prf s.A.toNat s.halves s.I.toNat) := by rw [receiveDigest_roundValue]; rfl
    _ = s.promised := by rw [promised_of_wait hp, ← finish_roundsFrom s.prf (toNat_lt_rounds hi.round_index)]

/-- MIX's halves are those after the present round, and the rounds from the next index on remain (R184, R204). -/
theorem State.Inv.promised_of_mix_move (hi : s.Inv) (hp : s.PH = .mix) :
    (State.setHalves (mixHalves s.dir s.A.toNat s.roundValue s.halves)
      { s with
        W := BitVec.ofNat 128 s.roundValue
        PH := (afterMix s.dir s.I).1
        I := (afterMix s.dir s.I).2 }).promised = s.promised := by
  obtain ⟨hL, hR, _⟩ := hi.halves (by rw [hp]; rfl)
  have hbelow : (mixHalves s.dir s.A.toNat s.roundValue s.halves).Below s.A.toNat := mixHalves_below s.dir _ ⟨hL, hR⟩
  have hhalves := setHalves_halves (s := { s with
        W := BitVec.ofNat 128 s.roundValue
        PH := (afterMix s.dir s.I).1
        I := (afterMix s.dir s.I).2 }) hbelow
  rw [promised_of_mix hp]
  rcases afterMix_cases s.dir hi.round_index with ⟨hlast, h⟩ | ⟨hlast, hph, hnext, _⟩
  · rw [promised_of_asm (congrArg Prod.fst h), hhalves, roundsFrom_of_last hlast]
    rfl
  · rw [promised_of_issue hph, hhalves, setHalves_I, hnext,
      roundsFrom_of_not_last (toNat_lt_rounds hi.round_index) hlast]
    rfl

/-- Every move keeps the promise while nothing is scripted. -/
theorem State.Inv.promised_of_agentMove (hi : s.Inv) (hs : s.scripted = []) (m : AgentMove s t) :
    t.promised = s.promised := by
  cases m with
  | split hp => exact hi.promised_of_split_move hp
  | issue hp => exact (promised_of_wait rfl).trans (promised_of_issue hp).symm
  | respond hp m hm =>
    have hmessage : m = s.message := Option.some.inj (hm.symm.trans (hi.request_eq_message hp))
    rw [hmessage, agentAnswer_of_unscripted _ hs]
    exact hi.promised_of_respond_move hp
  | mix hp => exact hi.promised_of_mix_move hp
  | asm hp =>
    obtain ⟨hL, hR, _⟩ := hi.halves (by rw [hp]; rfl)
    exact (promised_of_idle rfl).trans ((assemble_toNat hL hR).trans (promised_of_asm hp).symm)

/-- A started command promises the network's value of its operands (R180, R200). -/
theorem promised_startCommand (dir : Direction) (s : State) :
    (startCommand dir s).dir = dir ∧ (startCommand dir s).promised = network dir s.prf s.A.toNat s.X.toNat := by
  obtain ⟨_, _, _, hdir, _⟩ := accepted_setDir_reads dir s.STATUS
  have hdir' : (startCommand dir s).dir = dir := hdir
  refine ⟨hdir', ?_⟩
  rw [promised_of_split rfl, hdir']
  rfl

/-- A move of an agent leaves the answers unscripted (R109). -/
theorem AgentMove.scripted_eq_nil (m : AgentMove s t) (hs : s.scripted = []) : t.scripted = [] := by
  cases m with
  | split | issue | mix | asm => exact hs
  | respond _ m _ => rw [agentAnswer_of_unscripted m hs]; exact hs

/-- A host turn keeps the agent's key and leaves it steady, if no line of the script touches the agent (R288). -/
theorem State.agentSteady.hostTurn (hs : s.agentSteady) (h : hostTurn s = .next t) :
    t.agentSteady ∧ t.key = s.key := by
  obtain ⟨hscripted, hlines⟩ := hs
  unfold Machine.hostTurn at h
  cases hscript : s.script with
  | nil =>
    rw [hscript] at h
    cases h
    exact ⟨⟨hscripted, hlines⟩, rfl⟩
  | cons op rest =>
    rw [hscript] at h hlines
    have hop : touchesAgent op = false := hlines op List.mem_cons_self
    rcases runLine_frame h with hf | ⟨k, rfl, _⟩ | ⟨dg, rfl, _⟩
    · refine ⟨⟨hf.scripted.trans hscripted, fun l hl => ?_⟩, hf.key⟩
      rcases hf.script l hl with rfl | hmem
      · rfl
      · exact hlines l (List.mem_cons_of_mem op hmem)
    · simp [touchesAgent] at hop
    · simp [touchesAgent] at hop

/-- Every turn but reset keeps the agent steady and its key (R46, R288). -/
theorem State.Inv.agentSteady_of_step (hi : s.Inv) (hs : s.agentSteady) (hreset : s.nextTurn ≠ .reset)
    (h : step s = .next t) : t.agentSteady ∧ t.key = s.key := by
  cases hi.effect_of_step h with
  | reset hturn => exact absurd hturn hreset
  | host hturn =>
    have hdrop : s.dropTurn.agentSteady := hs
    exact hdrop.hostTurn ((step_hostTurn hturn).symm.trans h)
  | pass => exact ⟨hs, rfl⟩
  | move _ m =>
    obtain ⟨_, hkey, hscript, _⟩ := m.frame
    exact ⟨⟨m.scripted_eq_nil hs.1, hscript ▸ hs.2⟩, hkey⟩

/-- A host line that takes the block out of IDLE is the start of a command on the operands as they are (R223). -/
theorem HostEffect.start_of_idle (e : HostEffect s t) (hp : s.PH = .idle) (hp' : t.PH ≠ .idle) :
    ∃ dir, SameBlock (startCommand dir s) t := by
  cases e with
  | same h | storeA _ _ h | storeX _ _ h | fault _ _ h | dirFault _ _ _ h => exact absurd (h.PH.trans hp) hp'
  | start _ dir _ _ h => exact ⟨dir, h⟩

/-- Settles O34: a move keeps the promise, every other turn but reset leaves a running block alone, and only the start
of a command, which promises the network's value, leaves IDLE. -/
theorem interleavingLeavesThePromisedResult : Obligations.InterleavingLeavesThePromisedResult := by
  intro s hi hs hreset
  obtain ⟨t, ht, e⟩ := hi.step_effect
  obtain ⟨hsteady, hkey⟩ := hi.agentSteady_of_step hs hreset ht
  refine ⟨t, ht, hsteady, hkey, ?_⟩
  cases e with
  | reset hturn => exact absurd hturn hreset
  | host _ e =>
    refine ⟨fun hp => ?_, fun hp hp' => ?_⟩
    · have same := e.sameBlock_of_busy (hi.busy_eq_true hp)
      exact ⟨same.promised hkey, same.A⟩
    · obtain ⟨dir, same⟩ := e.start_of_idle hp hp'
      obtain ⟨hdir, hpromised⟩ := promised_startCommand dir s
      have hdir' : t.dir = dir := (congrArg Status.dir same.STATUS).trans hdir
      rw [hdir', same.promised hkey]
      exact ⟨hpromised, same.A, same.X⟩
  | pass => exact ⟨fun _ => ⟨rfl, rfl⟩, fun hp hp' => absurd hp hp'⟩
  | move hturn m =>
    refine ⟨fun _ => ⟨hi.dropTurn.promised_of_agentMove hs.1 m, m.frame.1⟩, fun hp => ?_⟩
    rw [hp] at hturn
    cases hturn

end Sys2Proof.Machine
end

section
/-! SUPPORT. Lines and transactions (R61, R107): a line that writes is its register with a value of the register's
width. -/

namespace Sys2Proof.Machine

/-- The line that writes `v` to register `r` (R107). -/
def writeLine (r : HostReg) (v : Nat) : HostOp :=
  match r with
  | .cmd => .wrCmd (BitVec.ofNat 8 v)
  | .status => .wrStatus (BitVec.ofNat 8 v)
  | .a => .wrA (BitVec.ofNat 128 v)
  | .x => .wrX (BitVec.ofNat 256 v)

@[simp] theorem ofIndex_index (r : HostReg) : HostReg.ofIndex r.index = r := by cases r <;> rfl

@[simp] theorem index_ofIndex (i : BitVec 2) : (HostReg.ofIndex i).index = i := by revert i; decide

/-- A write is well formed exactly when its value fits the register (R61). -/
theorem wellFormed_write {r : HostReg} {v : Nat} :
    (Transaction.write r.index v).wellFormed = true ↔ v < 2 ^ r.width := by
  simp [Transaction.wellFormed]

/-- A write that fits its register is the transaction of its line (R107). -/
theorem writeLine_transaction {r : HostReg} {v : Nat} (h : v < 2 ^ r.width) :
    (writeLine r v).transaction = some (.write r.index v) := by
  have hv : v % 2 ^ r.width = v := Nat.mod_eq_of_lt h
  cases r
  all_goals exact congrArg (fun w => some (Transaction.write _ w)) hv

/-- A write that fits its register has that line (R107). -/
theorem line_write {r : HostReg} {v : Nat} (h : v < 2 ^ r.width) :
    (Transaction.write r.index v).line = some (writeLine r v) := by
  rw [Transaction.line, if_pos (wellFormed_write.mpr h)]
  cases r <;> rfl

theorem line_read (r : HostReg) : (Transaction.read r.index).line = some (.rd r) := by cases r <;> rfl

/-- A write's transaction is well formed and has the line of the write. -/
theorem write_agrees {r : HostReg} {v : Nat} {op : HostOp} (h : v < 2 ^ r.width) (hop : writeLine r v = op) :
    (Transaction.write r.index v).wellFormed = true ∧ (Transaction.write r.index v).line = some op :=
  ⟨wellFormed_write.mpr h, hop ▸ line_write h⟩

/-- The transaction of a line is well formed and is that of no other line (R61, R107). -/
theorem line_of_transaction {op : HostOp} {t : Transaction} (h : op.transaction = some t) :
    t.wellFormed = true ∧ t.line = some op := by
  cases op with
  | wrCmd c => cases h; exact write_agrees c.isLt (congrArg HostOp.wrCmd (BitVec.ofNat_toNat 8 c))
  | wrStatus v => cases h; exact write_agrees v.isLt (congrArg HostOp.wrStatus (BitVec.ofNat_toNat 8 v))
  | wrA v => cases h; exact write_agrees v.isLt (congrArg HostOp.wrA (BitVec.ofNat_toNat 128 v))
  | wrX v => cases h; exact write_agrees v.isLt (congrArg HostOp.wrX (BitVec.ofNat_toNat 256 v))
  | rd r => cases h; exact ⟨rfl, line_read r⟩
  | wait | key | prf => cases h

/-- A well-formed transaction is that of a line (R61, R107). -/
theorem transaction_of_wellFormed {t : Transaction} (h : t.wellFormed = true) :
    ∃ op, t.line = some op ∧ op.transaction = some t := by
  cases t with
  | write i v =>
    obtain ⟨r, rfl⟩ : ∃ r : HostReg, i = r.index := ⟨HostReg.ofIndex i, (index_ofIndex i).symm⟩
    have hv := wellFormed_write.mp h
    exact ⟨_, line_write hv, writeLine_transaction hv⟩
  | read i =>
    obtain ⟨r, rfl⟩ : ∃ r : HostReg, i = r.index := ⟨HostReg.ofIndex i, (index_ofIndex i).symm⟩
    exact ⟨_, line_read r, rfl⟩

/-- Settles O5: each direction by its lemma; a transaction too wide fails the check its line begins with. -/
theorem linesAndTransactionsAgree : Obligations.LinesAndTransactionsAgree :=
  ⟨fun _ _ => line_of_transaction, fun _ => transaction_of_wellFormed, fun _ h => if_neg (by simp [h])⟩

end Sys2Proof.Machine
end

section
/-! SUPPORT. Command words and single steps: the codec on every command (R90 to R93), a step that takes a command write
(R79, R221), the start of each network (R223), a reset event (R280), a scripted answer (R109). -/

namespace Sys2Proof.Machine

variable {s : State}

/-- The decoder reads every command from its word (R91 to R93). -/
theorem decodeCommand_encode (i : Instr) : decodeCommand (encode i) = .ok i := by
  rcases i with _ | _ | d
  · rfl
  · rfl
  · cases d <;> rfl

/-- A word that decodes is the word of its command (R91 to R93, log 12). -/
theorem encode_of_decodeCommand {c : BitVec 8} {i : Instr} (h : decodeCommand c = .ok i) : encode i = c := by
  rcases decodeCommand_cases c with ⟨rfl, h'⟩ | ⟨rfl, h'⟩ | ⟨d, rfl, h'⟩ | ⟨_, h'⟩ <;> rw [h'] at h <;> cases h <;> rfl

/-- Settles O4: both round trips, each by its lemma. -/
theorem encodeAndDecodeAgree : Obligations.EncodeAndDecodeAgree :=
  ⟨decodeCommand_encode, fun _ _ => encode_of_decodeCommand⟩

/-- A word that decodes runs its command (R221). -/
theorem writeCmd_of_ok {c : BitVec 8} {i : Instr} (h : decodeCommand c = .ok i) (s : State) :
    writeCmd c s = exec i s := by rw [writeCmd, h]

/-- A word that is rejected raises its fault (R221, R224). -/
theorem writeCmd_of_error {c : BitVec 8} {e : DecodeReject} (h : decodeCommand c = .error e) (s : State) :
    writeCmd c s = .next (illegalCommand s) := by rw [writeCmd, h]

/-- A table word is decoded as the octet it is. -/
theorem decodeCommand_of_decodeTableWord {nbits w : Nat} {i : Instr} (h : decodeTableWord nbits w = some i) :
    decodeCommand (tableOctet nbits w) = .ok i := by
  unfold decodeTableWord decode at h
  cases hd : decodeCommand (tableOctet nbits w) with
  | error e => simp [hd] at h
  | ok j => simpa [hd] using h

/-- The placed word is the host's next line (log 6). -/
theorem withFetchWord_hostNext (s : State) (nbits w : Nat) :
    (s.withFetchWord nbits w).hostNext (.wrCmd (tableOctet nbits w)) s.script := ⟨rfl, rfl⟩

/-- Settles O6: a command write runs `writeCmd`; taking the placed line and its turn gives the state back. -/
theorem stepRunsTheDecodedCommand : Obligations.StepRunsTheDecodedCommand := by
  refine ⟨fun s c rest h => ⟨fun i hi => ?_, fun e he => ?_⟩, fun s w i h => ?_⟩
  · exact (step_host h).trans (writeCmd_of_ok hi _)
  · exact (step_host h).trans (writeCmd_of_error he _)
  · exact (step_host (withFetchWord_hostNext s 8 w)).trans (writeCmd_of_ok (decodeCommand_of_decodeTableWord h) s)

/-- Legal operands on a block that is not busy start the command of either direction (R223). -/
theorem exec_commandOf_start (dir : Direction) (hb : s.busy = false) (hA : 2 ≤ s.A.toNat)
    (hX : s.X.toNat < s.A.toNat * s.A.toNat) : exec (commandOf dir) s = .next (startCommand dir s) := by
  rw [exec_commandOf, acceptCommand_start hb hA hX]

/-- Settles O9: the start of the forward network, written as one update. -/
theorem encStartsTheForwardNetwork : Obligations.EncStartsTheForwardNetwork := fun s hb hA hX =>
  ⟨_, exec_commandOf_start .forward hb hA hX, accepted_setDir_reads .forward s.STATUS⟩

/-- Settles O10: the start of the reverse network, written as one update. -/
theorem decStartsTheReverseNetwork : Obligations.DecStartsTheReverseNetwork := fun s hb hA hX =>
  ⟨_, exec_commandOf_start .reverse hb hA hX, accepted_setDir_reads .reverse s.STATUS⟩

/-- Settles O2: the step is `resetBlock`, which leaves what the statement names. -/
theorem resetTurnResetsTheBlockAlone : Obligations.ResetTurnResetsTheBlockAlone :=
  fun _ h => ⟨_, _, step_reset h⟩

/-- The oldest scripted answer is given, and the others remain (R109, log 16). -/
theorem agentAnswer_of_scripted {dg : Digest} {more : List Digest} (m : Octets) (h : s.scripted = dg :: more) :
    agentAnswer m s = (dg, more) := by
  unfold agentAnswer; rw [h]

/-- Settles O21: RESPOND gives the scripted answer, and the latch holds its value whole. -/
theorem scriptedAnswerReplacesHmac : Obligations.ScriptedAnswerReplacesHmac := by
  intro s m dg more hturn hp hm hs
  have hstep := step_respond hturn hp hm
  rw [agentAnswer_of_scripted m hs] at hstep
  exact ⟨_, hstep, digest_toNat dg⟩

end Sys2Proof.Machine
end

section
/-! SUPPORT. The networks as functions: their closed forms (R186, R206), the messages of the opposite command (R170),
and a result that is below the square of the modulus but not below `n` (C1, R143). -/

namespace Sys2Proof.Machine

/-- The rounds of a command in order: 0, 1, 2 for `ENC`, and back for `DEC` (R34). -/
theorem roundsFrom_firstRound (dir : Direction) :
    roundsFrom dir (firstRound dir) = [firstRound dir, 1, lastRound dir] := by cases dir <;> rfl

/-- The whole network as its three rounds (R180, R200). -/
theorem network_eq (dir : Direction) (prf : Octets → Digest) (a x : Nat) :
    network dir prf a x = assemble dir a (networkRound dir prf a (networkRound dir prf a (networkRound dir prf a
      (splitHalves dir a x) (firstRound dir)) 1) (lastRound dir)) := by
  rw [network, finish, roundsFrom_firstRound]
  rfl

/-- Settles O39: the three rounds of `network_eq`, each of which makes one of the named halves. -/
theorem closedFormsOfTheNetworks : Obligations.ClosedFormsOfTheNetworks := by
  intro prf a x _ _
  constructor
  · rintro L0 R0 R1 R2 R3 rfl rfl rfl rfl rfl
    exact network_eq .forward prf a x
  · rintro L3 R3 L2 L1 L0 rfl rfl rfl rfl rfl
    exact network_eq .reverse prf a x

/-- The messages of two runs of rounds, one after the other (R76). -/
theorem requests_append (dir : Direction) (prf : Octets → Digest) (a : Nat) (is js : List Nat) (h : Halves) :
    requests dir prf a (is ++ js) h =
      requests dir prf a is h ++ requests dir prf a js (is.foldl (networkRound dir prf a) h) := by
  induction is generalizing h with
  | nil => rfl
  | cons i is ih => simp only [List.cons_append, requests, List.foldl_cons, ih]

/-- The half a round sent is the one the opposite round sends from its result (R163, R170). -/
theorem sentHalf_networkRound (dir : Direction) (prf : Octets → Digest) (a i : Nat) (h : Halves) :
    sentHalf (opposite dir) (networkRound dir prf a h i) = sentHalf dir h := by cases dir <;> rfl

/-- Undoing a run of rounds sends its messages in reverse order (R170). -/
theorem requests_opposite (dir : Direction) (prf : Octets → Digest) {a : Nat} (rounds : List Nat) {h : Halves}
    (hb : h.Below a) :
    requests (opposite dir) prf a rounds.reverse (rounds.foldl (networkRound dir prf a) h) =
      (requests dir prf a rounds h).reverse := by
  induction rounds generalizing h with
  | nil => rfl
  | cons i is ih =>
    have hb' := networkRound_below dir prf i hb
    rw [List.reverse_cons, requests_append, List.foldl_cons, ih hb', foldl_networkRound_opposite dir prf is hb',
      requests, requests, requests, List.reverse_cons, sentHalf_networkRound]

/-- Settles O40: the reverse split gives the halves the forward rounds ended with, and the reverse rounds undo them. -/
theorem decSendsTheMessagesOfEncReversed : Obligations.DecSendsTheMessagesOfEncReversed := by
  intro prf a x ha hx
  have hb := splitHalves_below .forward (by omega : 0 < a) hx
  have hsplit : splitHalves .reverse a (network .forward prf a x) = _ :=
    splitHalves_assemble .forward (foldl_networkRound_below .forward prf _ hb)
  rw [hsplit]
  exact requests_opposite .forward prf _ hb

/-- Settles O41: the bound is `network_lt`; an agent that answers every request with 32 octets of 1 takes the operand 0
to 7, with `a = 3`. -/
theorem rangeIsTheSquareAndNotTheModulus : Obligations.RangeIsTheSquareAndNotTheModulus := by
  refine ⟨fun dir prf a x ha hx => network_lt dir prf (by omega) hx, fun _ => Vector.replicate 32 1, 0, by decide, ?_⟩
  decide

/-- Settles O44: each reader on its format. -/
theorem messagesAndHeadersReadBack : Obligations.MessagesAndHeadersReadBack :=
  ⟨fun _ _ => readMessage_message, fun _ _ => readHeader_header⟩

end Sys2Proof.Machine
end

section
/-! SUPPORT. The public operations (R138 to R141): a call is refused by the Validator, or fails on a prime modulus, or
has factors and with them a value and a script. -/

namespace Sys2Proof.Machine

variable {n x : Option Int} {k t : Option Octets}

/-- Bounds of a validated call (R125, R126). -/
theorem validate_bounds {c : CallInputs} (h : validate n x k t = .ok c) : 2 ≤ c.n ∧ c.n < 2 ^ 128 ∧ c.x < c.n := by
  obtain ⟨n', x', k', t', _, _, _, _, ⟨_, _, _, hx0, hxn, hn2, hn⟩, rfl⟩ := validate_eq_ok_iff.mp h
  have hbounds : 2 ≤ n'.toNat ∧ n'.toNat < 2 ^ 128 ∧ x'.toNat < n'.toNat := by omega
  exact hbounds

/-- The three ways a call of a public operation goes (R138 to R141). -/
theorem call_cases (dir : Direction) (n x : Option Int) (k t : Option Octets) :
    (validate n x k t = .error .invalidArgument ∧ publicOperation dir n x k t = .error .invalidArgument ∧
      callScript dir n x k t = .error .invalidArgument) ∨
    (∃ c, validate n x k t = .ok c ∧ c.n.Prime ∧ publicOperation dir n x k t = .error .fpeError ∧
      callScript dir n x k t = .error .fpeError) ∨
    ∃ c a b, validate n x k t = .ok c ∧ ¬ c.n.Prime ∧ factor c.n = .ok (a, b) ∧
      publicOperation dir n x k t = .ok (network dir (Config.hmacSha256 (roundKey c.k c.n c.t).toList) a c.x) ∧
      callScript dir n x k t = .ok (callLines dir (roundKey c.k c.n c.t) a c.x) := by
  unfold publicOperation callScript
  cases hv : validate n x k t with
  | error e =>
    cases validate_error hv
    exact .inl ⟨rfl, rfl, rfl⟩
  | ok c =>
    rcases factor_cases (validate_bounds hv).1 with ⟨hf, hp⟩ | ⟨b, hf, _, hp⟩
    · exact .inr (.inl ⟨c, rfl, hp, by simp only [hf], by simp only [hf]⟩)
    · exact .inr (.inr ⟨c, c.n / b, b, rfl, hp, hf, by simp only [hf], by simp only [hf]⟩)

/-- Settles O48: in each of the three cases the Validator's answer, the value and the script are known. -/
theorem publicErrorKinds : Obligations.PublicErrorKinds := by
  intro dir n x k t
  rcases call_cases dir n x k t with ⟨hv, ho, hs⟩ | ⟨c, hv, hp, ho, hs⟩ | ⟨c, a, b, hv, hp, _, ho, hs⟩
  · simp [hv, ho, hs]
  · simp [hv, ho, hs, hp]
  · simp [hv, ho, hs, hp]

/-- A call that has a script is validated and factored (R139 to R141). -/
theorem callScript_eq_ok {dir : Direction} {lines : List HostOp} (h : callScript dir n x k t = .ok lines) :
    ∃ c a b, validate n x k t = .ok c ∧ factor c.n = .ok (a, b) ∧
      lines = callLines dir (roundKey c.k c.n c.t) a c.x ∧
      publicOperation dir n x k t = .ok (network dir (Config.hmacSha256 (roundKey c.k c.n c.t).toList) a c.x) := by
  rcases call_cases dir n x k t with ⟨_, _, hs⟩ | ⟨_, _, _, _, hs⟩ | ⟨c, a, b, hv, _, hf, ho, hs⟩
  · simp [hs] at h
  · simp [hs] at h
  · exact ⟨c, a, b, hv, hf, Except.ok.inj (h.symm.trans hs), ho⟩

/-- The factors of a validated call and its operand are legal for the block (R131, R146). -/
theorem factor_bounds {c : CallInputs} {a b : Nat} (hv : validate n x k t = .ok c) (hf : factor c.n = .ok (a, b)) :
    2 ≤ b ∧ b ≤ a ∧ a < 2 ^ 127 ∧ c.x < a * b ∧ a * b ≤ a * a := by
  obtain ⟨hn2, hn, hx⟩ := validate_bounds hv
  obtain ⟨hab, hb, hba, _⟩ := isGreatest_divisorsUpTo_sqrt_iff.mp ((factor_eq_ok_iff hn2).mp hf)
  have hdouble : a * 2 ≤ a * b := Nat.mul_le_mul_left a hb
  exact ⟨hb, hba, by omega, by omega, Nat.mul_le_mul_left a hba⟩

/-- Settles O49: the script is that of the validated and factored call, whose bounds are those of its factors. -/
theorem conformingHostLoadsLegalOperands : Obligations.ConformingHostLoadsLegalOperands := by
  intro dir n x k t lines h
  obtain ⟨c, a, b, hv, hf, hlines, _⟩ := callScript_eq_ok h
  exact ⟨c, a, b, hv, hf, hlines, factor_bounds hv hf⟩

end Sys2Proof.Machine
end

section
/-! SUPPORT. The turns of a command as updates of the state: SPLIT, a round of ISSUE, RESPOND and MIX, and ASM (R36,
R76), each run from a state that is at the head of its phase. -/

namespace Sys2Proof.Machine

variable {s : State} {dir : Direction} {ts : List Turn} {a k : Nat} {i : BitVec 2} {h : Halves}

/-- A turn's SPLIT (R183, R203). -/
def State.afterSplit (s : State) : State :=
  State.setHalves (splitHalves s.dir s.A.toNat s.X.toNat) { s.dropTurn with PH := .issue }

/-- A turn's ISSUE (R165). -/
def State.afterIssue (s : State) : State :=
  State.record (.prfReq s.message) { s.dropTurn with request := some s.message, PH := .wait }

/-- The events of a round: its request and the answer (R80). -/
def roundEvents (m : Octets) (dg : Digest) : List Event := [.prfReq m, .prfRsp dg]

/-- The turns of ISSUE and RESPOND, the answer being `dg` and `more` the answers still scripted (R165, R167). -/
def State.afterAnswer (dg : Digest) (more : List Digest) (s : State) : State :=
  { s with
    D := BitVec.ofNat 256 (os2ip dg.toList)
    PH := .mix
    request := none
    scripted := more
    turns := s.turns.tail.tail
    history := s.history ++ roundEvents s.message dg }

/-- A turn's MIX with the round value `v` (R184, R204). -/
def State.afterMix (v : Nat) (s : State) : State :=
  State.setHalves (mixHalves s.dir s.A.toNat v s.halves)
    { s.dropTurn with
      W := BitVec.ofNat 128 v
      PH := (Machine.afterMix s.dir s.I).1
      I := (Machine.afterMix s.dir s.I).2 }

/-- The three turns of a round. -/
def State.afterRound (dg : Digest) (more : List Digest) (s : State) : State :=
  (s.afterAnswer dg more).afterMix (os2ip dg.toList % s.A.toNat)

/-- A turn's ASM (R185, R205). -/
def State.afterAsm (s : State) : State := completeCommand (assemble s.dir s.A.toNat s.halves) s.dropTurn

/-- A running command of `dir` with modulus `a` at the head of `ph`, with round index `i`, halves `h` below the modulus,
and the turns `ts` to come. -/
structure State.At (s : State) (a : Nat) (dir : Direction) (ph : Phase) (i : BitVec 2) (h : Halves)
    (ts : List Turn) : Prop where
  A : s.A.toNat = a
  dir : s.dir = dir
  PH : s.PH = ph
  I : s.I = i
  halves : s.halves = h
  below : h.Below a
  turns : s.turns = ts

theorem nextTurn_of_turns {tn : Turn} (hturns : s.turns = tn :: ts) : s.nextTurn = tn := by
  unfold State.nextTurn; rw [hturns]

/-- The message of the present round, by its index and its halves (R165). -/
theorem State.At.message {ph : Phase} (hs : s.At a dir ph i h ts) :
    s.message = Machine.message i.toNat (sentHalf dir h) := by
  rw [State.message, State.sent, hs.dir, hs.I, hs.halves]

/-- SPLIT leads to the head of the first round (R183, R203). -/
theorem afterSplit_at (hA : 0 < s.A.toNat) (hX : s.X.toNat < s.A.toNat * s.A.toNat)
    (hturns : s.turns = .sequencer :: ts) :
    s.afterSplit.At s.A.toNat s.dir .issue s.I (splitHalves s.dir s.A.toNat s.X.toNat) ts := by
  have hb := splitHalves_below s.dir hA hX
  refine ⟨rfl, rfl, rfl, rfl, ?_, hb, congrArg List.tail hturns⟩
  unfold State.afterSplit
  exact setHalves_halves hb

/-- ISSUE in a turn of the sequencer (R165). -/
theorem step_issue (hturn : s.nextTurn = .sequencer) (hp : s.PH = .issue) (hI : s.I ≠ 3) :
    step s = .next s.afterIssue := by
  have hissue : sequencerTurn s.dropTurn = stepIssue s.dropTurn := sequencerTurn_issue hp
  have hnext : stepIssue s.dropTurn = .next s.afterIssue := stepIssue_next (s := s.dropTurn) hI
  rw [step_sequencer hturn, hissue, hnext]

/-- The answer depends on the scripted answers and the key alone (R65, R109). -/
theorem agentAnswer_congr {t : State} (m : Octets) (hscripted : t.scripted = s.scripted) (hkey : t.key = s.key) :
    agentAnswer m t = agentAnswer m s := by
  simp only [agentAnswer, State.prf, hscripted, hkey]

/-- RESPOND to the request that ISSUE has just sent (R167). -/
theorem step_respond_afterIssue {dg : Digest} {more : List Digest} (hturn : s.afterIssue.nextTurn = .prf)
    (hanswer : agentAnswer s.message s = (dg, more)) : step s.afterIssue = .next (s.afterAnswer dg more) := by
  have hagent : agentAnswer s.message s.afterIssue = (dg, more) := 
    (agentAnswer_congr (t := s.afterIssue) s.message rfl rfl).trans hanswer
  have hhistory : s.history ++ roundEvents s.message dg = s.afterIssue.history ++ [.prfRsp dg] :=
    (List.append_assoc s.history [.prfReq s.message] [.prfRsp dg]).symm
  rw [step_respond hturn rfl rfl, hagent, State.afterAnswer, hhistory]
  rfl

/-- The round value of a latched digest (R102, R168). -/
theorem afterAnswer_roundValue (dg : Digest) (more : List Digest) (s : State) :
    (s.afterAnswer dg more).roundValue = os2ip dg.toList % s.A.toNat := by
  rw [State.roundValue, State.afterAnswer, digest_toNat]

/-- MIX with the digest that RESPOND has just latched (R184, R204). -/
theorem step_mix_afterAnswer {dg : Digest} {more : List Digest} (hturn : (s.afterAnswer dg more).nextTurn = .sequencer)
    (hA : 0 < s.A.toNat) (hI : s.I ≠ 3) : step (s.afterAnswer dg more) = .next (s.afterRound dg more) := by
  rw [State.afterRound, ← afterAnswer_roundValue dg more]
  exact step_mix hturn rfl hA hI

/-! What SPLIT and a round leave, field by field. -/

section Fields

variable (dg : Digest) (more : List Digest) (s : State)

@[simp] theorem afterSplit_A : s.afterSplit.A = s.A := rfl
@[simp] theorem afterSplit_STATUS : s.afterSplit.STATUS = s.STATUS := rfl
@[simp] theorem afterSplit_key : s.afterSplit.key = s.key := rfl
@[simp] theorem afterSplit_prf : s.afterSplit.prf = s.prf := rfl
@[simp] theorem afterSplit_script : s.afterSplit.script = s.script := rfl
@[simp] theorem afterSplit_turns : s.afterSplit.turns = s.turns.tail := rfl
@[simp] theorem afterSplit_history : s.afterSplit.history = s.history := rfl
@[simp] theorem afterSplit_freeKeys : s.afterSplit.freeKeys = s.freeKeys := rfl

@[simp] theorem afterRound_A : (s.afterRound dg more).A = s.A := rfl
@[simp] theorem afterRound_I : (s.afterRound dg more).I = (Machine.afterMix s.dir s.I).2 := rfl
@[simp] theorem afterRound_PH : (s.afterRound dg more).PH = (Machine.afterMix s.dir s.I).1 := rfl
@[simp] theorem afterRound_STATUS : (s.afterRound dg more).STATUS = s.STATUS := rfl
@[simp] theorem afterRound_dir : (s.afterRound dg more).dir = s.dir := rfl
@[simp] theorem afterRound_request : (s.afterRound dg more).request = none := rfl
@[simp] theorem afterRound_key : (s.afterRound dg more).key = s.key := rfl
@[simp] theorem afterRound_prf : (s.afterRound dg more).prf = s.prf := rfl
@[simp] theorem afterRound_scripted : (s.afterRound dg more).scripted = more := rfl
@[simp] theorem afterRound_script : (s.afterRound dg more).script = s.script := rfl
@[simp] theorem afterRound_turns : (s.afterRound dg more).turns = s.turns.tail.tail.tail := rfl
@[simp] theorem afterRound_freeKeys : (s.afterRound dg more).freeKeys = s.freeKeys := rfl
@[simp] theorem afterRound_history :
    (s.afterRound dg more).history = s.history ++ roundEvents s.message dg := rfl

end Fields

/-- A round leads to the head of the phase that `afterMix` names, with the halves mixed (R180, R184, R200, R204). -/
theorem State.At.afterRound {ph : Phase} {j : BitVec 2} (hs : s.At a dir .issue i h (roundTurns ++ ts))
    (hnext : Machine.afterMix dir i = (ph, j)) (dg : Digest) (more : List Digest) :
    (s.afterRound dg more).At a dir ph j (mixHalves dir a (os2ip dg.toList % a) h) ts := by
  obtain ⟨rfl, rfl, _, rfl, rfl, hb, hturns⟩ := hs
  have hb' := mixHalves_below s.dir (os2ip dg.toList % s.A.toNat) hb
  exact {
    A := by rw [afterRound_A]
    dir := by rw [afterRound_dir]
    PH := by rw [afterRound_PH, hnext]
    I := by rw [afterRound_I, hnext]
    halves := by
      unfold State.afterRound State.afterMix
      exact setHalves_halves hb'
    below := hb'
    turns := by rw [afterRound_turns, hturns]; rfl }

/-- The three turns of a round (R36, R76). -/
theorem State.At.run_round {dg : Digest} {more : List Digest} (hs : s.At a dir .issue i h (roundTurns ++ ts))
    (hi : i ≠ 3) (hanswer : agentAnswer s.message s = (dg, more)) : run (k + 3) s = run k (s.afterRound dg more) := by
  have hA : 0 < s.A.toNat := hs.A ▸ Nat.zero_lt_of_lt hs.below.1
  have hI : s.I ≠ 3 := hs.I ▸ hi
  have hturn : s.nextTurn = .sequencer := nextTurn_of_turns hs.turns
  have hturn' : s.afterIssue.nextTurn = .prf := nextTurn_of_turns (congrArg List.tail hs.turns)
  have hturn'' : (s.afterAnswer dg more).nextTurn = .sequencer :=
    nextTurn_of_turns (congrArg (fun l => l.tail.tail) hs.turns)
  rw [run_succ (k + 2) (step_issue hturn hs.PH hI), run_succ (k + 1) (step_respond_afterIssue hturn' hanswer),
    run_succ k (step_mix_afterAnswer hturn'' hA hI)]

/-- ASM in a turn of the sequencer, and the result whole in `X` (R185, R205). -/
theorem State.At.run_asm (hs : s.At a dir .asm i h (.sequencer :: ts)) :
    run (k + 1) s = run k s.afterAsm ∧ s.afterAsm.X.toNat = assemble dir a h ∧ s.afterAsm.turns = ts := by
  obtain ⟨rfl, rfl, hp, rfl, rfl, hb, hturns⟩ := hs
  exact ⟨run_succ k (step_asm (nextTurn_of_turns hturns) hp hb.1 hb.2), assemble_toNat hb.1 hb.2,
    congrArg List.tail hturns⟩

/-- The round indices of a command: the first, 1, and the last, after which comes ASM (R184, R204). -/
theorem afterMix_firstRound (dir : Direction) : afterMix dir (BitVec.ofNat 2 (firstRound dir)) = (.issue, 1) := by
  cases dir <;> decide

theorem afterMix_one (dir : Direction) : afterMix dir 1 = (.issue, BitVec.ofNat 2 (lastRound dir)) := by
  cases dir <;> decide

theorem afterMix_lastRound (dir : Direction) :
    afterMix dir (BitVec.ofNat 2 (lastRound dir)) = (.asm, BitVec.ofNat 2 (lastRound dir)) := by
  cases dir <;> decide

theorem firstRound_toNat (dir : Direction) : (BitVec.ofNat 2 (firstRound dir)).toNat = firstRound dir := by
  cases dir <;> rfl

theorem lastRound_toNat (dir : Direction) : (BitVec.ofNat 2 (lastRound dir)).toNat = lastRound dir := by
  cases dir <;> rfl

theorem ofNat_firstRound_ne_three (dir : Direction) : BitVec.ofNat 2 (firstRound dir) ≠ 3 := by
  cases dir <;> decide

theorem ofNat_lastRound_ne_three (dir : Direction) : BitVec.ofNat 2 (lastRound dir) ≠ 3 := by
  cases dir <;> decide

/-- A started command takes its first turn (R183, R203, R223). -/
theorem run_startCommand (dir : Direction) (hA : 2 ≤ s.A.toNat) (hX : s.X.toNat < s.A.toNat * s.A.toNat)
    (hturns : s.turns = commandTurns ++ ts) :
    run (k + 1) (startCommand dir s) = run k (startCommand dir s).afterSplit ∧
    (startCommand dir s).afterSplit.At s.A.toNat dir .issue (BitVec.ofNat 2 (firstRound dir))
      (splitHalves dir s.A.toNat s.X.toNat) (roundTurns ++ (roundTurns ++ (roundTurns ++ .sequencer :: ts))) := by
  have hdir := (promised_startCommand dir s).1
  have hsplit := afterSplit_at (s := startCommand dir s) (by rw [startCommand_A]; omega) hX hturns
  rw [hdir] at hsplit
  exact ⟨run_succ k (step_split (nextTurn_of_turns hturns) rfl hA hX), hsplit⟩

end Sys2Proof.Machine
end

section
/-! SUPPORT. A whole command on an idle block: under the agent's own answers it is the network with the history the
spec lists (R180, R200, R80), under three scripted answers the closed form (R186), and the opposite command undoes it
(R207). -/

namespace Sys2Proof.Machine

variable {s : State} {dir : Direction} {ts : List Turn} {a k : Nat} {i : BitVec 2} {h : Halves}

/-- A round that the agent answers itself, nothing being scripted (R65). -/
def State.ownRound (s : State) : State := s.afterRound (s.prf s.message) []

@[simp] theorem State.ownRound_prf (s : State) : s.ownRound.prf = s.prf := afterRound_prf ..

@[simp] theorem startCommand_prf (dir : Direction) (s : State) : (startCommand dir s).prf = s.prf := rfl

/-- With nothing scripted a round is the network's, with its request and answer in the history (R80, R160). -/
theorem State.At.ownRound {n : Nat} {ph : Phase} {j : BitVec 2} (hs : s.At a dir .issue i h (roundTurns ++ ts))
    (hi : i ≠ 3) (hn : i.toNat = n) (hnext : Machine.afterMix dir i = (ph, j)) (hscripted : s.scripted = []) :
    run (k + 3) s = run k s.ownRound ∧ s.ownRound.At a dir ph j (networkRound dir s.prf a h n) ts ∧
      s.ownRound.history = s.history ++
        roundEvents (Machine.message n (sentHalf dir h)) (s.prf (Machine.message n (sentHalf dir h))) := by
  subst hn
  have hanswer : agentAnswer s.message s = (s.prf s.message, []) := by
    rw [agentAnswer_of_unscripted _ hscripted, hscripted]
  have hround := hs.afterRound hnext (s.prf s.message) []
  rw [hs.message] at hround
  refine ⟨hs.run_round hi hanswer, ?_, ?_⟩
  · rw [State.ownRound, hs.message]
    exact hround
  · rw [← hs.message]; exact afterRound_history ..

/-- The messages of a whole command of `dir` on the operands of `s`, in the order sent (R76, R98). -/
def commandMessages (dir : Direction) (s : State) : List Octets :=
  requests dir s.prf s.A.toNat (roundsFrom dir (firstRound dir)) (splitHalves dir s.A.toNat s.X.toNat)

/-- What a whole command makes of a state whose turns after it are `ts` (R80, R181, R202): `X` is the network's value,
`STATUS` is `DONE` with the direction, the internals are cleared, and the history has the events in order. -/
def CommandDone (dir : Direction) (s : State) (ts : List Turn) (u : State) : Prop :=
  u.X.toNat = network dir s.prf s.A.toNat s.X.toNat ∧
  Status.Reads u.STATUS s.STATUS false true false dir 0 ∧
  u = { s with
    X := u.X, L := 0, R := 0, W := 0, D := 0, I := 0, PH := .idle, STATUS := u.STATUS, request := none
    turns := ts
    history := s.history ++
      commandEvents dir (commandMessages dir s) ((commandMessages dir s).map s.prf) u.STATUS u.X }

/-- The events of a command, round by round (R80). -/
theorem commandEvents_three (dir : Direction) (prf : Octets → Digest) (m0 m1 m2 : Octets) (v : BitVec 8)
    (x : BitVec 256) :
    commandEvents dir [m0, m1, m2] ([m0, m1, m2].map prf) v x =
      [Event.accepted dir] ++ roundEvents m0 (prf m0) ++ roundEvents m1 (prf m1) ++ roundEvents m2 (prf m2) ++
        [Event.completed v x] := rfl

/-- The eleven turns of a started command that the agent answers itself (R36). -/
def State.ownCommand (dir : Direction) (s : State) : State :=
  (startCommand dir s).afterSplit.ownRound.ownRound.ownRound.afterAsm

/-- ASM records the completion with the values it leaves (R80). -/
theorem afterAsm_history (s : State) :
    s.afterAsm.history = s.history ++ [Event.completed s.afterAsm.STATUS s.afterAsm.X] := by
  unfold State.afterAsm
  exact completeCommand_history ..

/-- What a whole command leaves, whatever it computed (R185, R205). -/
theorem ownCommand_frame (dir : Direction) (s : State) :
    s.ownCommand dir = { s with
      X := (s.ownCommand dir).X, L := 0, R := 0, W := 0, D := 0, I := 0, PH := .idle
      STATUS := (s.ownCommand dir).STATUS
      request := none, scripted := [], turns := (s.ownCommand dir).turns, history := (s.ownCommand dir).history } := by
  unfold State.ownCommand State.afterAsm completeCommand State.record State.ownRound
  simp

/-- `STATUS` from the start of a command to its completion (R185, R205, R223). -/
theorem ownCommand_reads (dir : Direction) (s : State) :
    Status.Reads (s.ownCommand dir).STATUS s.STATUS false true false dir 0 := by
  have hstatus : (s.ownCommand dir).STATUS = Status.completed (Status.accepted (Status.setDir dir s.STATUS)) := by
    simp [State.ownCommand, State.afterAsm, State.ownRound]
  obtain ⟨_, _, herr, hdir, hcause, hrsv⟩ := accepted_setDir_reads dir s.STATUS
  obtain ⟨hbusy, hdone, herr', hdir', hcause', hrsv'⟩ :=
    completed_reads (Status.accepted (Status.setDir dir s.STATUS))
  rw [hstatus]
  exact ⟨hbusy, hdone, herr'.trans herr, hdir'.trans hdir, hcause'.trans hcause, hrsv'.trans hrsv⟩

/-- A started command runs to its end in eleven turns, with nothing scripted (R180, R200, R296). -/
theorem run_ownCommand (dir : Direction) (hA : 2 ≤ s.A.toNat) (hX : s.X.toNat < s.A.toNat * s.A.toNat)
    (hscripted : s.scripted = []) (hturns : s.turns = commandTurns ++ ts) :
    run (k + 11) (startCommand dir s) = run k (s.ownCommand dir) ∧ CommandDone dir s ts (s.ownCommand dir) := by
  obtain ⟨hrun, h0⟩ := run_startCommand (k := k + 10) dir hA hX hturns
  obtain ⟨hrun0, h1, hist1⟩ := h0.ownRound (k := k + 7) (ofNat_firstRound_ne_three dir) (firstRound_toNat dir)
    (afterMix_firstRound dir) hscripted
  obtain ⟨hrun1, h2, hist2⟩ := h1.ownRound (k := k + 4) (by decide) (n := 1) rfl (afterMix_one dir) rfl
  obtain ⟨hrun2, h3, hist3⟩ := h2.ownRound (k := k + 1) (ofNat_lastRound_ne_three dir) (lastRound_toNat dir)
    (afterMix_lastRound dir) rfl
  obtain ⟨hrun3, hx, hts⟩ := h3.run_asm (k := k)
  simp only [State.ownRound_prf, afterSplit_prf, startCommand_prf] at hist1 hist2 hist3 hx
  have hhistory : (s.ownCommand dir).history = s.history ++
      commandEvents dir (commandMessages dir s) ((commandMessages dir s).map s.prf) (s.ownCommand dir).STATUS
        (s.ownCommand dir).X := by
    rw [commandMessages, roundsFrom_firstRound, requests, requests, requests, requests, commandEvents_three,
      State.ownCommand, afterAsm_history, hist3, hist2, hist1, afterSplit_history, startCommand_history]
    simp only [List.append_assoc]
  have hframe := ownCommand_frame dir s
  have hturns' : (s.ownCommand dir).turns = ts := hts
  refine ⟨?_, ?_, ownCommand_reads dir s, ?_⟩
  · rw [hrun, hrun0, hrun1, hrun2, hrun3, State.ownCommand]
  · rw [State.ownCommand, hx, network_eq]
  · rwa [hturns', ← hscripted, hhistory] at hframe

/-- Settles O35: `exec` starts the command, and its eleven turns are `ownCommand`. -/
theorem commandComputesTheNetwork : Obligations.CommandComputesTheNetwork := by
  intro i dir hi s ts hb hA hX hscripted
  have hcommand : i = commandOf dir := by rcases hi with ⟨rfl, rfl⟩ | ⟨rfl, rfl⟩ <;> rfl
  obtain ⟨hrun, hdone⟩ := run_ownCommand (k := 0) (s := { s with turns := commandTurns ++ ts }) (ts := ts) dir hA hX
    hscripted rfl
  exact ⟨_, _, hcommand ▸ exec_commandOf_start dir hb hA hX, hrun.trans (run_zero _), hdone⟩

/-- Settles O36: each round takes the oldest scripted answer, and the three of them leave the halves of the closed
form. -/
theorem scriptedEncDeliversTheClosedForm : Obligations.ScriptedEncDeliversTheClosedForm := by
  intro s d0 d1 d2 more ts hb hA hX hscripted
  obtain ⟨hrun, h0⟩ := run_startCommand (k := 10) (s := { s with turns := commandTurns ++ ts }) (ts := ts) .forward
    hA hX rfl
  have hrun0 := h0.run_round (k := 7) (by decide) (agentAnswer_of_scripted _ hscripted)
  have h1 := h0.afterRound (afterMix_firstRound .forward) d0 (d1 :: d2 :: more)
  have hrun1 := h1.run_round (k := 4) (by decide) (agentAnswer_of_scripted _ rfl)
  have h2 := h1.afterRound (afterMix_one .forward) d1 (d2 :: more)
  have hrun2 := h2.run_round (k := 1) (by decide) (agentAnswer_of_scripted _ rfl)
  have h3 := h2.afterRound (afterMix_lastRound .forward) d2 more
  obtain ⟨hrun3, hx, _⟩ := h3.run_asm (k := 0)
  refine ⟨_, _, exec_commandOf_start .forward hb hA hX,
    ((((hrun.trans hrun0).trans hrun1).trans hrun2).trans hrun3).trans (run_zero _), rfl, rfl, ?_⟩
  simpa [assemble, mixHalves, combine, sentHalf, keptHalf, splitHalves, addmod] using hx

/-- A command line on an idle block with legal operands and nothing scripted, and the turns of the command (R36,
R225). -/
theorem run_commandLine {dir : Direction} {rest : List HostOp} (hb : s.busy = false) (hA : 2 ≤ s.A.toNat)
    (hX : s.X.toNat < s.A.toNat * s.A.toNat) (hscripted : s.scripted = [])
    (hscript : s.script = (commandOf dir).line :: rest) (hturns : s.turns = .host :: (commandTurns ++ ts)) :
    ∃ u, run (k + 12) s = run k u ∧ CommandDone dir { s with script := rest } ts u := by
  have hturns' : (s.afterLine rest).turns = commandTurns ++ ts := congrArg List.tail hturns
  obtain ⟨hrun, hdone⟩ := run_ownCommand (k := k) (s := s.afterLine rest) dir hA hX hscripted hturns'
  have hstep : step s = .next (startCommand dir (s.afterLine rest)) := by
    rw [step_host ⟨nextTurn_of_turns hturns, hscript⟩]
    exact (writeCmd_of_ok (decodeCommand_encode (commandOf dir)) _).trans (exec_commandOf_start dir hb hA hX)
  exact ⟨_, (run_succ (k + 11) hstep).trans hrun, hdone⟩

/-- A whole command leaves the modulus, the agent and the script (R25, R46). -/
theorem CommandDone.frame {u : State} (hdone : CommandDone dir s ts u) :
    u.A = s.A ∧ u.key = s.key ∧ u.scripted = s.scripted ∧ u.script = s.script ∧ u.turns = ts ∧ u.PH = .idle := by
  obtain ⟨_, _, hu⟩ := hdone
  rw [hu]
  exact ⟨rfl, rfl, rfl, rfl, rfl, rfl⟩

/-- Settles O37: the second command runs on the result of the first with the same modulus and key, and its network is
the inverse. -/
theorem oppositeCommandRestoresTheOperand : Obligations.OppositeCommandRestoresTheOperand := by
  intro dir s rest ts hb hA hX hscripted hscript hturns
  obtain ⟨u, hrun, hdone⟩ := run_commandLine (k := 12) hb hA hX hscripted hscript hturns
  obtain ⟨huA, hukey, huscripted, huscript, huturns, _⟩ := hdone.frame
  obtain ⟨huX, ⟨hubusy, _, _, _, _, hursv⟩, _⟩ := hdone
  have huprf : u.prf = s.prf := by rw [State.prf, hukey]; rfl
  have hposA : 0 < s.A.toNat := by omega
  have hlegal : u.X.toNat < u.A.toNat * u.A.toNat := by
    rw [huX, huA]
    exact network_lt dir s.prf hposA hX
  obtain ⟨t, hrun', hdone'⟩ := run_commandLine (k := 0) hubusy (huA ▸ hA) hlegal (huscripted.trans hscripted) huscript
    huturns
  obtain ⟨htA, _, _, htscript, htturns, htPH⟩ := hdone'.frame
  obtain ⟨htX, ⟨hbusy, hdn, herr, hdir, hcause, hrsv⟩, _⟩ := hdone'
  refine ⟨t, hrun.trans (hrun'.trans (run_zero t)), BitVec.eq_of_toNat_eq ?_, htA.trans huA, htPH, htscript, htturns,
    hbusy, hdn, herr, hdir, hcause, hrsv.trans hursv⟩
  calc t.X.toNat
      _ = network (opposite dir) u.prf u.A.toNat u.X.toNat := htX
      _ = network (opposite dir) s.prf s.A.toNat (network dir s.prf s.A.toNat s.X.toNat) := by rw [huprf, huA, huX]; rfl
      _ = s.X.toNat := network_opposite dir s.prf hposA hX

end Sys2Proof.Machine
end

section
/-! SUPPORT. The script of a public operation on the block (R110, R140, R141): it installs the key, loads the operands,
runs the command, and reads the result back. -/

namespace Sys2Proof.Machine

variable {s : State} {rest : List HostOp} {ts : List Turn} {k : Nat}

/-- A host turn that runs the next line (R24, R107). -/
theorem run_line {op : HostOp} {t : State} (hscript : s.script = op :: rest) (hturns : s.turns = .host :: ts)
    (h : runLine op { s with script := rest, turns := ts } = .next t) : run (k + 1) s = run k t := by
  refine run_succ k ((step_host ⟨nextTurn_of_turns hturns, hscript⟩).trans ?_)
  rw [State.afterLine, State.dropTurn, hturns]
  exact h

/-- The three lines before the command load the agent and the block (R109, R226, R227). -/
theorem run_loadLines {key : PrfKey} {a : BitVec 128} {x : BitVec 256} (hb : s.busy = false)
    (hscript : s.script = .key key :: .wrA a :: .wrX x :: rest) (hturns : s.turns = .host :: .host :: .host :: ts) :
    run (k + 3) s = run k { s with key := key, A := a, X := x, script := rest, turns := ts } := by
  refine Eq.trans (run_line hscript hturns rfl) ?_
  refine Eq.trans (run_line rfl rfl (congrArg Host.Outcome.next (writeA_of_not_busy a hb))) ?_
  exact run_line rfl rfl (congrArg Host.Outcome.next (writeX_of_not_busy x hb))

/-- A poll of a block that is not busy is a read of `STATUS` (R109). -/
theorem hostWait_of_not_busy (hb : s.busy = false) :
    hostWait s = State.record (.readReturned .status (readReg .status s)) s := by
  rw [hostWait_eq, hb]
  rfl

/-- The two lines after the command: on a block that is not busy one poll and the read of `X` (R109, R230). -/
theorem run_readLines (hb : s.busy = false) (hscript : s.script = .wait :: .rd .x :: rest)
    (hturns : s.turns = .host :: .host :: ts) :
    run (k + 2) s = run k { s with
      script := rest
      turns := ts
      history := (s.history ++ [.readReturned .status (readReg .status s)]) ++ [.readReturned .x s.X.toNat] } := by
  refine Eq.trans (run_line hscript hturns (congrArg Host.Outcome.next (hostWait_of_not_busy hb))) ?_
  exact run_line rfl rfl rfl

/-- The host's answer is made of the last poll and the read of `X` (R140). -/
theorem historyAnswer_append (h : List Event) (v x : Nat) :
    historyAnswer ((h ++ [Event.readReturned .status v]) ++ [Event.readReturned .x x]) =
      hostAnswer (BitVec.ofNat 8 v) x := by
  simp [historyAnswer]

/-- Masking bits 7:6 leaves `ERR` and `DONE` (R39, R40, R42). -/
theorem readable_err_done (v : BitVec 8) :
    Status.err (Status.readable v) = Status.err v ∧ Status.done (Status.readable v) = Status.done v := by
  revert v; decide

/-- A completed command answers with the value of `X` (R247, R290). -/
theorem hostAnswer_of_completed {s : State} (herr : Status.err s.STATUS = false) (hdone : Status.done s.STATUS = true)
    (x : Nat) : hostAnswer (BitVec.ofNat 8 (readReg .status s)) x = some (.ok x) := by
  obtain ⟨herr', hdone'⟩ := readable_err_done s.STATUS
  rw [readReg, BitVec.ofNat_toNat, BitVec.setWidth_eq, hostAnswer, herr', hdone', herr, hdone]
  rfl

/-- Settles O50: the lines load the validated call, the command computes the network of its operands under its round
key, and the last two lines read it back. -/
theorem publicOperationRunsOnTheBlock : Obligations.PublicOperationRunsOnTheBlock := by
  intro dir n x k t lines rest s ts h hb hscripted hscript hturns
  obtain ⟨c, a, b, hv, hf, rfl, hvalue⟩ := callScript_eq_ok h
  obtain ⟨hb2, hba, ha, hx, hsquare⟩ := factor_bounds hv hf
  have hA : (BitVec.ofNat 128 a).toNat = a := Nat.mod_eq_of_lt (by omega)
  have hX : (BitVec.ofNat 256 c.x).toNat = c.x := by
    have hlt : a * a < 2 ^ 127 * 2 ^ 127 := Nat.mul_self_lt_mul_self ha
    exact Nat.mod_eq_of_lt (by omega)
  have hload := run_loadLines (k := 14) hb hscript hturns
  obtain ⟨u, hrun, hdone⟩ := run_commandLine (k := 2) (dir := dir) (rest := .wait :: .rd .x :: rest)
    (s := { s with
      key := roundKey c.k c.n c.t, A := BitVec.ofNat 128 a, X := BitVec.ofNat 256 c.x
      script := (commandOf dir).line :: .wait :: .rd .x :: rest
      turns := .host :: (commandTurns ++ (.host :: .host :: ts)) })
    hb (by rw [hA]; omega) (by rw [hA, hX]; omega) hscripted rfl rfl
  obtain ⟨_, _, _, huscript, huturns, huPH⟩ := hdone.frame
  obtain ⟨huX, ⟨hubusy, hudone, huerr, _⟩, _⟩ := hdone
  have hread := run_readLines (k := 0) hubusy huscript huturns
  have hresult : u.X.toNat = network dir (Config.hmacSha256 (roundKey c.k c.n c.t).toList) a c.x := by
    rw [huX, hA, hX]
    rfl
  refine ⟨_, hload.trans (hrun.trans (hread.trans (run_zero _))), ?_, huPH, rfl, rfl⟩
  rw [historyAnswer_append, hostAnswer_of_completed huerr hudone, hresult, hvalue]

end Sys2Proof.Machine
end
